-- ==== Sys2Proof/Word.lean ====
section
/-! DEFINITION. The word types of the block (00_scope.md R5, R9). Every quantity is unsigned. -/

namespace Sys2Proof

/-- A byte of the image, of OUT, or the operand of CRC.BYTE. -/
abbrev Byte := BitVec 8

/-- A 16-bit value: the CRC register, a response, the length-minus-one field (CRCW, LENFW of R5). -/
abbrev Half := BitVec 16

/-- A 24-bit address of the target space (AW of R5). -/
abbrev Addr := BitVec 24

/-- A 32-bit command word (CMDW, R6 and 30_encoding.md R80). -/
abbrev CmdWord := BitVec 32

end Sys2Proof
end

