-- ==== Sys2Proof/Config.lean ====
section
/-! DEFINITION. The constants of 00_scope.md R5 and the one parameter R6 leaves open. -/

namespace Sys2Proof.Config

/-- PAGE: no segment crosses a multiple of it (R5). -/
def page : Nat := 0x10000

/-- XORCONST: XORed into the seed when the byte parity is odd (R5). -/
def xorConst : Half := 0xC001#16

/-- SEED0: the seed at the start of every segment (R5). -/
def seed0 : Half := 0x0000#16

/-- RECOVH: the bytes a record holds beside its data (R5). -/
def recordOverhead : Nat := 7

/-- The number of addresses of the target space, 2^AW: an exact sum from here on is truncated
(41_segmenter.md R149). -/
def addrSpace : Nat := 0x1000000

/-- LENW (00_scope.md R6): `none` for unbounded counters, `some k` for counters of `32 + k` bits.
The spec admits every value of 32 or more, or unbounded naturals, so nothing is known of it (log entry 4). -/
opaque lenwChoice : Option Nat

/-- The image length fits the counters: it is below 2^LENW (R6; 10_state.md R31; 70_reset_and_hazards.md R212).
The first alternative decides every length below 2^32, which every admissible LENW holds. -/
def admitsLength (n : Nat) : Bool :=
  decide (n < 2 ^ 32) ||
    match lenwChoice with
    | none => true
    | some k => decide (n < 2 ^ (32 + k))

end Sys2Proof.Config
end

