-- ==== Sys2Proof/Syntax.lean ====
section
/-! DEFINITION. The seven operations of 30_encoding.md R83, one constructor per row of spec/opcode_table.json. -/

namespace Sys2Proof

/-- An operation (00_scope.md R2). Each operand has the width its format gives it (30_encoding.md R81, R82). -/
inductive Instr where
  /-- CRC.SEED imm16 (format H, 40_crc.md R115). -/
  | crcSeed (imm16 : Half)
  /-- CRC.BYTE imm8 (format B, 40_crc.md R116). -/
  | crcByte (imm8 : Byte)
  /-- CRC.RD (format Z, 40_crc.md R117). -/
  | crcRd
  /-- SEG.START imm24 (format A, 41_segmenter.md R141). -/
  | segStart (imm24 : Addr)
  /-- SEG.STEP (format Z, 41_segmenter.md R142). -/
  | segStep
  /-- SEG.RUN (format Z, 41_segmenter.md R143). -/
  | segRun
  /-- ST.RD (format Z, 41_segmenter.md R144). -/
  | stRd
  deriving DecidableEq, Repr

end Sys2Proof
end

