-- ==== Sys2Proof/WellFormed.lean ====
section
/-! DEFINITION. What is well-formed before it reaches the block: a source operation's operand (30_encoding.md R95)
and the length of an image to be bound (70_reset_and_hazards.md R212).

A term of `Instr` carries its operands at the width of their format, so every term of it is an operation of the
opcode map; the range checks are on the numbers an assembler reads, where a wider operand can be written. -/

namespace Sys2Proof

/-- An operation as the assembler reads it: a mnemonic and, for three of them, a number of any size (R95). -/
inductive SourceOp where
  | crcSeed (n : Nat)
  | crcByte (n : Nat)
  | crcRd
  | segStart (n : Nat)
  | segStep
  | segRun
  | stRd
  deriving DecidableEq, Repr

/-- The operand is in the range of its format: at most 0xFFFF for CRC.SEED, 0xFF for CRC.BYTE and 0xFFFFFF for
SEG.START (R95). -/
def SourceOp.wellFormed : SourceOp → Bool
  | .crcSeed n => decide (n ≤ 0xFFFF)
  | .crcByte n => decide (n ≤ 0xFF)
  | .crcRd => true
  | .segStart n => decide (n ≤ 0xFFFFFF)
  | .segStep => true
  | .segRun => true
  | .stRd => true

/-- The image may be bound: its length is below 2^LENW (10_state.md R31, 70_reset_and_hazards.md R212). -/
def imageFits (img : List Byte) : Bool := Config.admitsLength img.length

end Sys2Proof
end

