-- ==== Sys2Proof/Decode.lean ====
section
/-! DEFINITION. Decoding of command words, total and rejecting by name (30_encoding.md R80 to R86), the opcode map
as rows (R83), the encoder (R86), and the bytewise carriage of a word (20_memory.md R58). -/

namespace Sys2Proof

/-- Why a word is illegal (R84). The block stores neither the reason nor the word (60_exceptions.md R180, R181):
the two names are for readers of a decoding only. -/
inductive IllegalWord where
  /-- `op` is none of the seven opcodes. -/
  | undefinedOpcode
  /-- `op` is an opcode and a reserved bit of its format is 1. -/
  | reservedBitSet
  deriving DecidableEq, Repr

/-- The outcome of decoding: one of the seven operations, or Illegal (R86). -/
inductive Decoded where
  | legal (i : Instr)
  | illegal (why : IllegalWord)
  deriving DecidableEq, Repr

/-- The operation, where the word is legal. -/
def Decoded.instr? : Decoded → Option Instr
  | .legal i => some i
  | .illegal _ => none

/-! ### The fields of a word (R80 to R82) -/

/-- `op = w[31:24]`. -/
def opField (w : CmdWord) : Byte := w.extractLsb' 24 8

/-- `arg = w[23:0]`, which is also format A's `imm24`. -/
def argField (w : CmdWord) : Addr := w.extractLsb' 0 24

/-- Format H's `imm16 = w[15:0]`. -/
def imm16Field (w : CmdWord) : Half := w.extractLsb' 0 16

/-- Format B's `imm8 = w[7:0]`. -/
def imm8Field (w : CmdWord) : Byte := w.extractLsb' 0 8

/-- Format Z's reserved bits, `arg[23:0]`, are 0. -/
def reservedZClear (w : CmdWord) : Bool := argField w == 0#24

/-- Format B's reserved bits, `arg[23:8]`, are 0. -/
def reservedBClear (w : CmdWord) : Bool := w.extractLsb' 8 16 == 0#16

/-- Format H's reserved bits, `arg[23:16]`, are 0. -/
def reservedHClear (w : CmdWord) : Bool := w.extractLsb' 16 8 == 0#8

/-- The operation `i` if the reserved bits of its format are clear, else the rejection R84 gives. -/
def legalIf (clear : Bool) (i : Instr) : Decoded :=
  if clear then .legal i else .illegal .reservedBitSet

/-- R86's `decode`: a total function of the 32-bit word. -/
def decode (w : CmdWord) : Decoded :=
  if opField w = 0x01#8 then legalIf (reservedHClear w) (.crcSeed (imm16Field w))
  else if opField w = 0x02#8 then legalIf (reservedBClear w) (.crcByte (imm8Field w))
  else if opField w = 0x03#8 then legalIf (reservedZClear w) .crcRd
  else if opField w = 0x10#8 then .legal (.segStart (argField w))
  else if opField w = 0x11#8 then legalIf (reservedZClear w) .segStep
  else if opField w = 0x12#8 then legalIf (reservedZClear w) .segRun
  else if opField w = 0x20#8 then legalIf (reservedZClear w) .stRd
  else .illegal .undefinedOpcode

/-! ### The opcode map as rows (R83) -/

/-- A row of R83: its mnemonic and the test `(w & mask) = pattern`. -/
structure OpcodeRow where
  mnemonic : String
  pattern  : CmdWord
  mask     : CmdWord
  deriving DecidableEq, Repr

/-- The word passes the row's test. -/
def OpcodeRow.accepts (r : OpcodeRow) (w : CmdWord) : Bool := w &&& r.mask == r.pattern

/-- The seven rows of R83, in its order. -/
def opcodeMap : List OpcodeRow :=
  [ ⟨"CRC.SEED",  0x01000000#32, 0xFFFF0000#32⟩,
    ⟨"CRC.BYTE",  0x02000000#32, 0xFFFFFF00#32⟩,
    ⟨"CRC.RD",    0x03000000#32, 0xFFFFFFFF#32⟩,
    ⟨"SEG.START", 0x10000000#32, 0xFF000000#32⟩,
    ⟨"SEG.STEP",  0x11000000#32, 0xFFFFFFFF#32⟩,
    ⟨"SEG.RUN",   0x12000000#32, 0xFFFFFFFF#32⟩,
    ⟨"ST.RD",     0x20000000#32, 0xFFFFFFFF#32⟩ ]

/-- The operation's mnemonic (30_encoding.md R95). -/
def Instr.mnemonic : Instr → String
  | .crcSeed _ => "CRC.SEED"
  | .crcByte _ => "CRC.BYTE"
  | .crcRd => "CRC.RD"
  | .segStart _ => "SEG.START"
  | .segStep => "SEG.STEP"
  | .segRun => "SEG.RUN"
  | .stRd => "ST.RD"

/-! ### The encoder (R86) -/

/-- R86's `encode`: the opcode in the high byte, the operand zero-extended below it. -/
def encode : Instr → CmdWord
  | .crcSeed s => 0x01000000#32 ||| s.zeroExtend 32
  | .crcByte b => 0x02000000#32 ||| b.zeroExtend 32
  | .crcRd => 0x03000000#32
  | .segStart a => 0x10000000#32 ||| a.zeroExtend 32
  | .segStep => 0x11000000#32
  | .segRun => 0x12000000#32
  | .stRd => 0x20000000#32

/-! ### Bytewise carriage (20_memory.md R58) -/

/-- A word as four bytes, bits 7:0 first, bits 31:24 last. -/
def wordBytes (w : CmdWord) : List Byte :=
  [w.extractLsb' 0 8, w.extractLsb' 8 8, w.extractLsb' 16 8, w.extractLsb' 24 8]

/-- The next word of a bytewise command path and the bytes after it; `none` while fewer than four bytes have come,
since every operation is one whole word (30_encoding.md R80). -/
def takeWord : List Byte → Option (CmdWord × List Byte)
  | b0 :: b1 :: b2 :: b3 :: rest => some (b3 ++ b2 ++ b1 ++ b0, rest)
  | _ => none

/-- Decoding from a bytewise path: total on any bytes. -/
def decodeBytes (bs : List Byte) : Option (Decoded × List Byte) :=
  match takeWord bs with
  | some (w, rest) => some (decode w, rest)
  | none => none

/-! ### The host's question -/

/-- The command word whose low `nbits` bits are those of `w`, the bits above them 0. -/
def tableWord (nbits w : Nat) : CmdWord := BitVec.ofNat 32 (w % 2 ^ nbits)

/-- What the decoder reads from a word given by number, bit 0 the least significant: the word is presented as one
32-bit value, so no byte order enters (20_memory.md R58). -/
def decodeTableWord (nbits w : Nat) : Option Instr := (decode (tableWord nbits w)).instr?

end Sys2Proof
end

