-- ==== Sys2Proof/Machine/Operands.lean ====
section
/-! DEFINITION. The values an operation computes from registers before it writes any: the byte fields of a value
(00_scope.md R9) and the geometry of the next segment (41_segmenter.md R146 to R148). -/

namespace Sys2Proof.Machine

/-- `lo8(v) = v[7:0]` (R9). -/
def lo8 {n : Nat} (v : BitVec n) : Byte := v.extractLsb' 0 8

/-- `mid8(v) = v[15:8]` (R9). -/
def mid8 {n : Nat} (v : BitVec n) : Byte := v.extractLsb' 8 8

/-- `hi8(v) = v[23:16]` (R9). -/
def hi8 {n : Nat} (v : BitVec n) : Byte := v.extractLsb' 16 8

/-- A 16-bit value as the bytes that carry it, low byte first (20_memory.md R56, R57). -/
def halfBytes (v : Half) : List Byte := [lo8 v, mid8 v]

/-- A 24-bit value as the bytes that carry it, low, mid, high (20_memory.md R57). -/
def addrBytes (a : Addr) : List Byte := [lo8 a, mid8 a, hi8 a]

/-- The in-page part of an address, `a & 0xFFFF` (PAGEMASK of R5). -/
def inPage (a : Addr) : Nat := (a &&& 0x00FFFF#24).toNat

/-- `page_room`: the bytes from the running address to the next page boundary (R146). -/
def pageRoom (ca : Addr) : Nat := Config.page - inPage ca

/-- `seg_len = min(REM, page_room)` (R147). -/
def segLen (rem : Nat) (ca : Addr) : Nat := min rem (pageRoom ca)

/-- The exact sum `LA + OFF`, not truncated (R148). -/
def addrSum (la : Addr) (off : Nat) : Nat := la.toNat + off

/-- `trunc_24` (00_scope.md R11). -/
def trunc24 (n : Nat) : Addr := BitVec.ofNat 24 n

/-- `seg_address = trunc_24(LA + OFF)` (R148). -/
def segAddress (la : Addr) (off : Nat) : Addr := trunc24 (addrSum la off)

/-- The length field: the length minus one, in 16 bits (30_encoding.md R89). -/
def lengthField (len : Nat) : Half := BitVec.ofNat 16 (len - 1)

end Sys2Proof.Machine
end

