-- ==== Sys2Proof/Machine/Flags.lean ====
section
/-! DEFINITION. Every flag computation: the wrap test (41_segmenter.md R149), the page-boundary predicate (R152), DONE
and the status word (10_state.md R26, 41_segmenter.md R144). -/

namespace Sys2Proof.Machine

/-- The exact sum `LA + OFF` is 2^24 or more (R149). -/
def addrWraps (la : Addr) (off : Nat) : Bool := decide (Config.addrSpace ≤ addrSum la off)

/-- `PageOK(a, n)`: `(a & 0xFFFF) + n <= 0x10000` (R152). -/
def pageOK (a : Addr) (n : Nat) : Bool := decide (inPage a + n ≤ Config.page)

/-- ST.DONE, computed at the read: `REM = 0` (10_state.md R26). -/
def doneFlag (rem : Nat) : Bool := decide (rem = 0)

/-- The status word: bit 0 DONE, 1 AWRAP, 2 PBERR, 3 CMDERR, bits 15:4 zero (R144). -/
def statusWord (cmderr pberr awrap done : Bool) : Half :=
  0x000#12 ++ BitVec.ofBool cmderr ++ BitVec.ofBool pberr ++ BitVec.ofBool awrap ++ BitVec.ofBool done

end Sys2Proof.Machine
end

