-- ==== Sys2Proof/Machine/State.lean ====
section
/-! DEFINITION. The state of the block (10_state.md R20), the reasons a step can stop, and the state after reset (R34). -/

namespace Sys2Proof.Machine

/-- What the host may do between operations (70_reset_and_hazards.md R222). Reading OUT and RSP changes nothing and is
no move: `readOut` and `readRsp` of Machine/Ops.lean say what the host sees. -/
inductive HostMove where
  /-- Issue a command word, legal or not. -/
  | command (w : CmdWord)
  /-- Bind an image: all its bytes and, with them, its length (R212). -/
  | bind (img : List Byte)
  /-- The reset event (R210). -/
  | reset
  deriving DecidableEq, Repr

/-- The state. The fields up to `rsp` are the block's, exactly the components of 10_state.md R20 (DONE is computed at
the read, ST[15:4] is hardwired 0, R26). The last two are the model's own: the image is a parameter of the run (R31)
and the host's moves are its input; the fixed interface's step has no other argument (log entries 1 and 2). -/
structure State where
  /-- CRC (R21). -/
  crc    : Half
  /-- LA, the load address of the run (R23). -/
  la     : Addr
  /-- CA, the running address (R24). -/
  ca     : Addr
  /-- OFF, the offset in the image of the first byte not yet emitted (R25); exact, it never wraps (log entry 4). -/
  off    : Nat
  /-- REM, the number of image bytes not yet emitted (R25); exact (log entry 4). -/
  rem    : Nat
  /-- ST.AWRAP (R26). -/
  awrap  : Bool
  /-- ST.PBERR (R26). -/
  pberr  : Bool
  /-- ST.CMDERR (R26). -/
  cmderr : Bool
  /-- OUTN, the number of bytes written to OUT (R29). -/
  outn   : Nat
  /-- OUT, byte `k` at position `k` (R29; 20_memory.md R53; log entry 9). -/
  out    : List Byte
  /-- RSP, oldest response first (R30). -/
  rsp    : List Half
  /-- IMG, byte `k` at offset `k` (R31; 20_memory.md R50); the model's field. -/
  img    : List Byte
  /-- The moves the host makes next, in order; the model's field. -/
  moves  : List HostMove
  deriving DecidableEq, Repr

/-- Why the machine stops with a fault. -/
inductive Fault where
  /-- Raised by SEG.STEP and SEG.RUN when the bytes of the segment do not all lie in the image. 20_memory.md R52 asks
  for a fault or a stuck state and never a byte, and shows that no run reaches it. Safe: the model stops (log entry 7). -/
  | imageReadOutOfRange
  deriving DecidableEq, Repr

/-- Why the machine refuses a move. -/
inductive Refusal where
  /-- Raised by `exec` for an instruction that has no meaning yet; no arm of this model does. Safe. -/
  | notModelled (mnemonic : String)
  /-- Raised by a `bind` move: an image of 2^LENW bytes or more cannot be bound (70_reset_and_hazards.md R212). Safe:
  the spec says there is no such move (log entry 5). -/
  | imageTooLong
  /-- Raised by a `bind` move that would change the image while REM > 0: the host is given no such move
  (70_reset_and_hazards.md R214; 93_implementation_defined.md U12). Unsafe: no claim covers a host that breaks the rule
  (log entry 6). -/
  | imageChangedDuringRun
  deriving DecidableEq, Repr

/-- The state after reset: every register at the value of R34, OUT and RSP empty. The image and the moves are the
host's; here the host has bound the empty image and makes no move (log entries 1 and 2). -/
def State.reset : State where
  crc := 0x0000#16
  la := 0x000000#24
  ca := 0x000000#24
  off := 0
  rem := 0
  awrap := false
  pberr := false
  cmderr := false
  outn := 0
  out := []
  rsp := []
  img := []
  moves := []

end Sys2Proof.Machine
end

