-- ==== Sys2Proof/Machine/Ops.lean ====
section
/-! DEFINITION. The named operations over the registers, the image and the two streams (00_scope.md R11, 20_memory.md),
and the recording of a condition (60_exceptions.md R180 to R183). -/

namespace Sys2Proof.Machine

/-! ### Registers: `x[NAME] <- v` (00_scope.md R11) -/

def writeCrc (v : Half) (s : State) : State := { s with crc := v }

def writeLa (v : Addr) (s : State) : State := { s with la := v }

def writeCa (v : Addr) (s : State) : State := { s with ca := v }

def writeOff (v : Nat) (s : State) : State := { s with off := v }

def writeRem (v : Nat) (s : State) : State := { s with rem := v }

/-! ### The image space (20_memory.md R50 to R52) -/

/-- `MemRead(off, 1)`: the byte of the image at `off`; no byte at any other offset (R51, R52). -/
def memRead (img : List Byte) (off : Nat) : Option Byte := img[off]?

/-- `n` ascending byte reads from `off`: the slice `image[off : off + n]` (R51). `memReadRun_eq_some_iff` of
Laws/Ops.lean says it is the bytes `memRead` gives, and none if one of them is missing. -/
def memReadRun (img : List Byte) (off n : Nat) : Option (List Byte) :=
  if off + n ≤ img.length then some ((img.drop off).take n) else none

/-! ### The output stream (20_memory.md R53, R54) -/

/-- The canonical form of OUT: OUTN is the number of bytes in it, so position OUTN is the next one free (10_state.md R29). -/
abbrev Memory.wf (s : State) : Prop := s.outn = s.out.length

/-- `Out(b)`: byte `b` at position OUTN, then OUTN grows by one; it always succeeds (R54). -/
def outByte (b : Byte) (s : State) : State := { s with out := s.out ++ [b], outn := s.outn + 1 }

/-- `Out` of each byte in order (R54, R62); `outBytes_eq_foldl` of Laws/Ops.lean says it is `outByte` repeated. -/
def outBytes (bs : List Byte) (s : State) : State :=
  { s with out := s.out ++ bs, outn := s.outn + bs.length }

/-- What the host reads at a position of OUT: a byte at 0 to OUTN - 1, nothing elsewhere (10_state.md R29). -/
def readOut (s : State) (pos : Nat) : Option Byte := if pos < s.outn then s.out[pos]? else none

/-! ### The response port (20_memory.md R56) -/

/-- `Rsp(v)` (R56). -/
def respond (v : Half) (s : State) : State := { s with rsp := s.rsp ++ [v] }

/-- What the host reads as response number `k`, counted from reset (10_state.md R30). -/
def readRsp (s : State) (k : Nat) : Option Half := s.rsp[k]?

/-! ### Recording a condition (60_exceptions.md)

The block has no trap: no saved register, no vector, no mode (R183). Recording a condition is setting its sticky flag.
There is no return operation, because control never left, and no operation clears a flag (R184). -/

/-- `raise CmdError(w)`: ST.CMDERR becomes 1; nothing else changes and the word is not stored (R181). -/
def raiseCmdError (s : State) : State := { s with cmderr := true }

/-- The AWRAP notice: set if the segment's exact address is 2^24 or more, else left (41_segmenter.md R149). -/
def recordWrap (wraps : Bool) (s : State) : State := { s with awrap := s.awrap || wraps }

/-- The validator's verdict: PBERR is set if the page-boundary predicate is false, else left (41_segmenter.md R153). -/
def recordPageCheck (ok : Bool) (s : State) : State := { s with pberr := s.pberr || !ok }

/-! ### Events from outside (70_reset_and_hazards.md R222) -/

/-- The reset event: every register at its reset value, OUT and RSP empty; the bound image is not touched (R210). -/
def resetBlock (s : State) : State := { State.reset with img := s.img, moves := s.moves }

/-- Binding an image (R212). One of 2^LENW bytes or more cannot be bound; while a run is going on the host has no move
that changes the image (R214; log entries 5 and 6). -/
def bindImage (img : List Byte) (s : State) : Host.Outcome State Fault Refusal :=
  if imageFits img = false then .refused .imageTooLong
  else if s.rem ≠ 0 ∧ img ≠ s.img then .refused .imageChangedDuringRun
  else .next { s with img := img }

end Sys2Proof.Machine
end

