-- ==== Sys2Proof/Machine/Crc.lean ====
section
/-! DEFINITION. The CRC engine and its three operations (40_crc.md). -/

namespace Sys2Proof.Machine

/-- PAR, entry 0 first: 1 when the index has an odd number of 1 bits (00_scope.md R5, 40_crc.md R111). -/
def parTable : List Bool :=
  [false, true, true, false, true, false, false, true, true, false, false, true, false, true, true, false]

/-- `PAR[n]` (R111). -/
def par (n : BitVec 4) : Bool := parTable[n.toNat]'n.isLt

/-- `CrcUpd(s, b)`: steps 2 to 8 of R112, in order. -/
def crcUpd (s : Half) (b : Byte) : Half :=
  let dat : Byte := b ^^^ s.extractLsb' 0 8                                        -- (2)
  let seed : Half := s >>> 8                                                       -- (3)
  let indx1 : BitVec 4 := dat.extractLsb' 0 4                                      -- (4)
  let indx2 : BitVec 4 := dat.extractLsb' 4 4
  let seed : Half := if par indx1 ^^ par indx2 then seed ^^^ Config.xorConst else seed  -- (5)
  let dat6 : Half := (dat.zeroExtend 16 <<< 6) &&& 0xFFFF#16                       -- (6)
  let seed : Half := seed ^^^ dat6
  let dat7 : Half := (dat6 <<< 1) &&& 0xFFFF#16                                    -- (7)
  seed ^^^ dat7                                                                    -- (8)

/-- `CrcRun(s, bytes)`: the update folded over the bytes, first to last (R113). -/
def crcRun (s : Half) : List Byte → Half
  | [] => s
  | b :: rest => crcRun (crcUpd s b) rest

/-- `crc16(bytes) = CrcRun(0, bytes)` (R114). -/
def crc16 (bytes : List Byte) : Half := crcRun Config.seed0 bytes

/-- CRC.SEED imm16: `x[CRC] <- imm16` (R115). -/
def execCrcSeed (imm16 : Half) (s : State) : Host.Outcome State Fault Refusal :=
  .next (writeCrc imm16 s)

/-- CRC.BYTE imm8: `x[CRC] <- CrcUpd(x[CRC], imm8)` (R116). -/
def execCrcByte (imm8 : Byte) (s : State) : Host.Outcome State Fault Refusal :=
  .next (writeCrc (crcUpd s.crc imm8) s)

/-- CRC.RD: `Rsp(x[CRC])`; the read does not change CRC (R117). -/
def execCrcRd (s : State) : Host.Outcome State Fault Refusal :=
  .next (respond s.crc s)

end Sys2Proof.Machine
end

