-- ==== Sys2Proof/Machine/Record.lean ====
section
/-! DEFINITION. The abstract segment and the TBIN record that serialises it (30_encoding.md R87 to R94). -/

namespace Sys2Proof.Machine

/-- A segment (R94): `length` ranges over 1 to 65536 and needs 17 bits in flight (90_conflicts.md C2). -/
structure Segment where
  address : Addr
  length  : Nat
  data    : List Byte
  crc     : Half
  deriving DecidableEq, Repr

/-- `Ser(s)`: address, length minus one, data, CRC, with no gap, each field low byte first (R87). -/
def serialise (g : Segment) : List Byte :=
  addrBytes g.address ++ halfBytes (lengthField g.length) ++ g.data ++ halfBytes g.crc

/-- The segment length a reader of the stream takes from bytes 3 and 4 of a record: `byte3 + 256 * byte4 + 1` (R92). -/
def storedLength (b3 b4 : Byte) : Nat := b3.toNat + 256 * b4.toNat + 1

/-- Reading one record back: its segment and the bytes after it, by the record's own length field (R92, R94);
`none` where the bytes end before the record does. -/
def parseRecord : List Byte → Option (Segment × List Byte)
  | b0 :: b1 :: b2 :: b3 :: b4 :: rest =>
    match rest.drop (storedLength b3 b4) with
    | c0 :: c1 :: rest' =>
      some (⟨b2 ++ b1 ++ b0, storedLength b3 b4, rest.take (storedLength b3 b4), c1 ++ c0⟩, rest')
    | _ => none
  | _ => none

end Sys2Proof.Machine
end

