-- ==== Sys2Proof/Machine/Segmenter.lean ====
section
/-! DEFINITION. The segmenter, the page-boundary validator and the three operations that drive them
(41_segmenter.md R140 to R155). -/

namespace Sys2Proof.Machine

/-- The segment the registers name, given its bytes: its address by R148, its length by R147, its CRC by R154. -/
def segmentOf (s : State) (data : List Byte) : Segment where
  address := segAddress s.la s.off
  length := segLen s.rem s.ca
  data := data
  crc := crc16 data

/-- The segment a step emits, with its bytes read by R150; `none` where those bytes do not all lie in the image
(20_memory.md R52; log entry 7). -/
def nextSegment (s : State) : Option Segment :=
  match memReadRun s.img s.off (segLen s.rem s.ca) with
  | none => none
  | some data => some (segmentOf s data)

/-- The advance of R151: OFF grows, REM shrinks, CA grows modulo 2^24. -/
def advance (len : Nat) (s : State) : State :=
  writeCa (s.ca + trunc24 len) (writeRem (s.rem - len) (writeOff (s.off + len) s))

/-- A step's effects in the order of R145: the wrap flag, the validator, CRC, the record, the advance. -/
def emitSegment (g : Segment) (s : State) : State :=
  advance g.length
    (outBytes (serialise g)
      (writeCrc g.crc
        (recordPageCheck (pageOK g.address g.length)
          (recordWrap (addrWraps s.la s.off) s))))

/-- `SegStep()`, which requires REM > 0 (R145). -/
def segStep (s : State) : Host.Outcome State Fault Refusal :=
  match nextSegment s with
  | none => .fault .imageReadOutOfRange
  | some g => .next (emitSegment g s)

/-- `while REM > 0 do SegStep()` for at most `fuel` passes. Each pass lowers REM by at least one, so REM passes are
enough (R155). -/
def segLoop : Nat → State → Host.Outcome State Fault Refusal
  | 0, s => .next s
  | fuel + 1, s =>
    if s.rem = 0 then .next s
    else
      match segStep s with
      | .next t => segLoop fuel t
      | .fault r => .fault r
      | .refused r => .refused r

/-- SEG.START imm24: LA and CA take the load address, OFF 0, REM the image's length (R141). -/
def execSegStart (imm24 : Addr) (s : State) : Host.Outcome State Fault Refusal :=
  .next (writeRem s.img.length (writeOff 0 (writeCa imm24 (writeLa imm24 s))))

/-- SEG.STEP: `if x[REM] > 0 then SegStep()` (R142). -/
def execSegStep (s : State) : Host.Outcome State Fault Refusal :=
  if s.rem = 0 then .next s else segStep s

/-- SEG.RUN: `while x[REM] > 0 do SegStep()` (R143). -/
def execSegRun (s : State) : Host.Outcome State Fault Refusal :=
  segLoop s.rem s

end Sys2Proof.Machine
end

