-- ==== Sys2Proof/Machine/Status.lean ====
section
/-! DEFINITION. The status read (41_segmenter.md R144). -/

namespace Sys2Proof.Machine

/-- ST as a read gives it (10_state.md R26). -/
def status (s : State) : Half := statusWord s.cmderr s.pberr s.awrap (doneFlag s.rem)

/-- ST.RD: `Rsp` of the status word; the read clears nothing (R144). -/
def execStRd (s : State) : Host.Outcome State Fault Refusal :=
  .next (respond (status s) s)

end Sys2Proof.Machine
end

