-- ==== Sys2Proof/Machine/Dispatch.lean ====
section
/-! DEFINITION. One arm per operation: its meaning. -/

namespace Sys2Proof.Machine

def exec (i : Instr) (s : State) : Host.Outcome State Fault Refusal :=
  match i with
  | .crcSeed imm16 => Sys2Proof.Machine.execCrcSeed imm16 s
  | .crcByte imm8 => Sys2Proof.Machine.execCrcByte imm8 s
  | .crcRd => Sys2Proof.Machine.execCrcRd s
  | .segStart imm24 => Sys2Proof.Machine.execSegStart imm24 s
  | .segStep => Sys2Proof.Machine.execSegStep s
  | .segRun => Sys2Proof.Machine.execSegRun s
  | .stRd => Sys2Proof.Machine.execStRd s

end Sys2Proof.Machine
end

