-- ==== Sys2Proof/Machine/HostPort.lean ====
section
/-! DEFINITION. The host's side: presenting a command word, and what the block does with each of the host's moves
(70_reset_and_hazards.md R222). There is no program counter and no fetch (10_state.md R27): operations are presented
one at a time, and the order of execution is the order of presentation. -/

namespace Sys2Proof.Machine

/-- The host's next move, and the state with that move made. -/
def takeMove (s : State) : Option (HostMove × State) :=
  match s.moves with
  | [] => none
  | m :: rest => some (m, { s with moves := rest })

/-- A command word: a legal one executes its operation, an illegal one raises CmdError and nothing else
(30_encoding.md R84, R86; 60_exceptions.md R182). -/
def issueWord (w : CmdWord) (s : State) : Host.Outcome State Fault Refusal :=
  match decode w with
  | .legal i => exec i s
  | .illegal _ => .next (raiseCmdError s)

/-- What one move of the host does (R222). -/
def serveMove (m : HostMove) (s : State) : Host.Outcome State Fault Refusal :=
  match m with
  | .command w => issueWord w s
  | .bind img => bindImage img s
  | .reset => .next (resetBlock s)

/-- No move: the block executes only what the host issues, so it keeps its state (00_scope.md R7; log entry 3). -/
def idle (s : State) : Host.Outcome State Fault Refusal := .next s

/-- The host presents a command word, to be served before the moves it already has in mind (log entry 8). -/
def presentWord (w : CmdWord) (s : State) : State := { s with moves := .command w :: s.moves }

/-- One step: the host's next move, or none. -/
def stepHost (s : State) : Host.Outcome State Fault Refusal :=
  match takeMove s with
  | none => idle s
  | some (m, t) => serveMove m t

end Sys2Proof.Machine
end

