-- ==== Sys2Proof/Machine/Step.lean ====
section
/-! DEFINITION. One step of the machine, and placing an instruction where the next step takes it from. -/

namespace Sys2Proof.Machine

/-- One step: one move of the host, executed to completion (00_scope.md R7). -/
def step (s : State) : Host.Outcome State Fault Refusal := stepHost s

/-- The state in which the host's next move is to issue the word whose low `nbits` bits are those of `w` (log entry 8). -/
def State.withFetchWord (s : State) (nbits w : Nat) : State := presentWord (tableWord nbits w) s

end Sys2Proof.Machine
end

