-- ==== Sys2Proof/Machine/Assembler.lean ====
section
/-! DEFINITION. The textual form of operations (30_encoding.md R95) and the pseudo-operations (R96). It is a front end
of the block, not state or behaviour of it. What R95 does not fix is in log entry 11. -/

namespace Sys2Proof.Machine

/-- Why a line gives no word. -/
inductive AsmError where
  /-- The first word of the line is no mnemonic of R95 or R96, letter for letter. -/
  | unknownMnemonic
  /-- An operand is not a number in C notation, decimal or hexadecimal. -/
  | badNumber
  /-- The operation takes another number of operands. -/
  | wrongOperandCount
  /-- An operand is above the range of its format: "an assembly error; no word is produced" (R95). -/
  | operandOutOfRange
  deriving DecidableEq, Repr

/-! ### Operations and pseudo-operations -/

/-- The operation a well-formed source operation stands for; an operand out of range is an error (R95). -/
def assembleOp (o : SourceOp) : Except AsmError Instr :=
  if o.wellFormed = false then .error .operandOutOfRange
  else
    match o with
    | .crcSeed n => .ok (.crcSeed (BitVec.ofNat 16 n))
    | .crcByte n => .ok (.crcByte (BitVec.ofNat 8 n))
    | .crcRd => .ok .crcRd
    | .segStart n => .ok (.segStart (BitVec.ofNat 24 n))
    | .segStep => .ok .segStep
    | .segRun => .ok .segRun
    | .stRd => .ok .stRd

/-- The pseudo-operations of R96. -/
inductive PseudoOp where
  | crcClr
  | crcBytes (bytes : List Nat)
  | crc16 (bytes : List Nat)
  | encode (loadAddress : Nat)
  deriving DecidableEq, Repr

/-- R96's expansions. -/
def PseudoOp.expand : PseudoOp → List SourceOp
  | .crcClr => [.crcSeed 0]
  | .crcBytes bytes => bytes.map .crcByte
  | .crc16 bytes => .crcSeed 0 :: bytes.map .crcByte ++ [.crcRd]
  | .encode a => [.segStart a, .segRun]

/-- The operations of a list of source operations, or the first error. -/
def assembleOps : List SourceOp → Except AsmError (List Instr)
  | [] => .ok []
  | o :: rest =>
    match assembleOp o with
    | .error e => .error e
    | .ok i =>
      match assembleOps rest with
      | .error e => .error e
      | .ok is => .ok (i :: is)

/-! ### Text -/

/-- The text cut at every character that `isCut` accepts. -/
def cutText (isCut : Char → Bool) : List Char → List (List Char)
  | [] => [[]]
  | c :: rest =>
    if isCut c then [] :: cutText isCut rest
    else
      match cutText isCut rest with
      | [] => [[c]]
      | word :: words => (c :: word) :: words

/-- A space, a tab or a carriage return separates words. -/
def isBlank (c : Char) : Bool := c == ' ' || c == '\t' || c == '\r'

/-- The words of a line; a semicolon starts a comment that runs to the end of the line (R95). -/
def lineWords (line : List Char) : List (List Char) :=
  (cutText isBlank (line.takeWhile (· != ';'))).filter (fun word => !word.isEmpty)

/-- The value of a digit, decimal or hexadecimal in either case, if it is below the base. -/
def digitValue (base : Nat) (c : Char) : Option Nat :=
  let v :=
    if 48 ≤ c.toNat ∧ c.toNat ≤ 57 then c.toNat - 48
    else if 97 ≤ c.toNat ∧ c.toNat ≤ 102 then c.toNat - 87
    else if 65 ≤ c.toNat ∧ c.toNat ≤ 70 then c.toNat - 55
    else base
  if v < base then some v else none

/-- The number a run of digits writes, after the digits that give `acc`. -/
def digitsValue (base : Nat) (acc : Nat) : List Char → Option Nat
  | [] => some acc
  | c :: rest =>
    match digitValue base c with
    | none => none
    | some v => digitsValue base (acc * base + v) rest

/-- A number in C notation: `0x` for hexadecimal, no prefix for decimal (R95). -/
def numberValue : List Char → Option Nat
  | [] => none
  | '0' :: 'x' :: [] => none
  | '0' :: 'x' :: ds => digitsValue 16 0 ds
  | ds => digitsValue 10 0 ds

/-- The operands of a line. -/
def operandValues : List (List Char) → Except AsmError (List Nat)
  | [] => .ok []
  | word :: rest =>
    match numberValue word with
    | none => .error .badNumber
    | some n =>
      match operandValues rest with
      | .error e => .error e
      | .ok ns => .ok (n :: ns)

/-- The one operand of an operation that takes one. -/
def oneOperand (build : Nat → List SourceOp) : List Nat → Except AsmError (List SourceOp)
  | [n] => .ok (build n)
  | _ => .error .wrongOperandCount

/-- No operand, for an operation that takes none. -/
def noOperand (ops : List SourceOp) : List Nat → Except AsmError (List SourceOp)
  | [] => .ok ops
  | _ => .error .wrongOperandCount

/-- The source operations a mnemonic and its operands stand for (R95, R96). -/
def sourceOps (mnemonic : List Char) (operands : List Nat) : Except AsmError (List SourceOp) :=
  if mnemonic = "CRC.SEED".toList then oneOperand (fun n => [.crcSeed n]) operands
  else if mnemonic = "CRC.BYTE".toList then oneOperand (fun n => [.crcByte n]) operands
  else if mnemonic = "CRC.RD".toList then noOperand [.crcRd] operands
  else if mnemonic = "SEG.START".toList then oneOperand (fun n => [.segStart n]) operands
  else if mnemonic = "SEG.STEP".toList then noOperand [.segStep] operands
  else if mnemonic = "SEG.RUN".toList then noOperand [.segRun] operands
  else if mnemonic = "ST.RD".toList then noOperand [.stRd] operands
  else if mnemonic = "CRC.CLR".toList then noOperand (PseudoOp.expand .crcClr) operands
  else if mnemonic = "CRC.BYTES".toList then .ok (PseudoOp.expand (.crcBytes operands))
  else if mnemonic = "CRC16".toList then .ok (PseudoOp.expand (.crc16 operands))
  else if mnemonic = "ENCODE".toList then oneOperand (fun n => PseudoOp.expand (.encode n)) operands
  else .error .unknownMnemonic

/-- The operations of one line; a line with no word on it gives none. -/
def assembleLine (line : List Char) : Except AsmError (List Instr) :=
  match lineWords line with
  | [] => .ok []
  | mnemonic :: operands =>
    match operandValues operands with
    | .error e => .error e
    | .ok ns =>
      match sourceOps mnemonic ns with
      | .error e => .error e
      | .ok ops => assembleOps ops

/-- The operations of several lines, in order, or the first error. -/
def assembleLines : List (List Char) → Except AsmError (List Instr)
  | [] => .ok []
  | line :: rest =>
    match assembleLine line with
    | .error e => .error e
    | .ok is =>
      match assembleLines rest with
      | .error e => .error e
      | .ok more => .ok (is ++ more)

/-- The command words of a text, one operation per line (R95). -/
def assemble (text : String) : Except AsmError (List CmdWord) :=
  match assembleLines (cutText (· == '\n') text.toList) with
  | .error e => .error e
  | .ok is => .ok (is.map encode)

end Sys2Proof.Machine
end

