-- ==== Sys2Proof/Safety.lean ====
section
/-! DEFINITION. The terms claims are made in: issuing operations one after another, the invariant of a run, the shape of
a run (41_segmenter.md R160), and the independent forms of the CRC update (40_crc.md R112, R119). -/

namespace Sys2Proof.Safety

open Sys2Proof.Machine

/-! ### Issuing operations in order (00_scope.md R7) -/

/-- The outcome of issuing operations one after another, stopping at the first that does not complete. -/
def issue : List Instr → State → Host.Outcome State Fault Refusal
  | [], s => .next s
  | i :: rest, s =>
    match exec i s with
    | .next t => issue rest t
    | .fault r => .fault r
    | .refused r => .refused r

/-! ### The invariant -/

/-- What holds at reset and at every operation boundary after it. -/
structure Inv (s : State) : Prop where
  /-- While a run goes on, `OFF + REM = len(IMG)` (41_segmenter.md R156). -/
  run : s.rem ≠ 0 → s.off + s.rem = s.img.length
  /-- `CA = trunc_24(LA + OFF)` (41_segmenter.md R157). -/
  address : s.ca = BitVec.ofNat 24 (s.la.toNat + s.off)
  /-- OUTN counts the bytes of OUT (10_state.md R29). -/
  stream : Memory.wf s
  /-- The validator has never fired (41_segmenter.md R158). -/
  validator : s.pberr = false
  /-- The bound image is one that can be bound (10_state.md R31). -/
  image : imageFits s.img = true

/-! ### Plain arithmetic forms of the record (30_encoding.md R87) -/

/-- The `k` low bytes of a number, least significant first (20_memory.md R57). -/
def leBytes : Nat → Nat → List Byte
  | 0, _ => []
  | k + 1, v => BitVec.ofNat 8 (v % 256) :: leBytes k (v / 256)

/-- The record of a segment, by R87's table: 3 address bytes, 2 bytes of the length minus one, the data, 2 CRC bytes. -/
def recordBytes (address length : Nat) (data : List Byte) (crc : Half) : List Byte :=
  leBytes 3 address ++ leBytes 2 (length - 1) ++ data ++ leBytes 2 crc.toNat

/-! ### The shape of a run (41_segmenter.md R160), `A` the load address and `L` the image's length -/

/-- `r0 = 0x10000 - (A & 0xFFFF)`. -/
def firstRoom (A : Addr) : Nat := 0x10000 - A.toNat % 0x10000

/-- `nseg`: 0, 1, or `1 + ceil((L - r0) / 65536)`. -/
def segCount (A : Addr) (L : Nat) : Nat :=
  if L = 0 then 0
  else if L ≤ firstRoom A then 1
  else 1 + (L - firstRoom A + 65535) / 65536

/-- The offset of segment `k`, counted from 0. -/
def segOffset (A : Addr) (k : Nat) : Nat := if k = 0 then 0 else firstRoom A + (k - 1) * 65536

/-- The length of segment `k`, counted from 0: the first is `min(L, r0)`, the others 65536 but for the last. -/
def segLength (A : Addr) (L k : Nat) : Nat :=
  if k = 0 then min L (firstRoom A)
  else if k + 1 < segCount A L then 65536
  else L - firstRoom A - (segCount A L - 2) * 65536

/-- The image's slice that is segment `k`'s data. -/
def segData (img : List Byte) (A : Addr) (k : Nat) : List Byte :=
  (img.drop (segOffset A k)).take (segLength A img.length k)

/-- Segment `k` of a run: its address is `trunc_24(A + offset)`, its CRC `crc16` of its data. -/
def runSegment (img : List Byte) (A : Addr) (k : Nat) : Segment where
  address := BitVec.ofNat 24 (A.toNat + segOffset A k)
  length := segLength A img.length k
  data := segData img A k
  crc := crc16 (segData img A k)

/-- `Segs(IMG, A)` (41_segmenter.md R162), by R160's closed form. -/
def runSegments (img : List Byte) (A : Addr) : List Segment :=
  (List.range (segCount A img.length)).map (runSegment img A)

/-- The record bytes of a segment. -/
def segmentBytes (g : Segment) : List Byte := recordBytes g.address.toNat g.length g.data g.crc

/-! ### Independent forms of the CRC update -/

/-- The XOR of the eight bits of a byte. -/
def byteParity (d : Byte) : Bool :=
  d[0] ^^ d[1] ^^ d[2] ^^ d[3] ^^ d[4] ^^ d[5] ^^ d[6] ^^ d[7]

/-- R112's one expression. -/
def crcUpdFormula (s : Half) (b : Byte) : Half :=
  let d : Byte := b ^^^ BitVec.ofNat 8 s.toNat
  (s >>> 8) ^^^ (if byteParity d then 0xC001#16 else 0x0000#16) ^^^
    (BitVec.ofNat 16 d.toNat <<< 6) ^^^ (BitVec.ofNat 16 d.toNat <<< 7)

/-- One pass of R119's loop. -/
def crcShift (v : Half) : Half := if v.getLsbD 0 then (v >>> 1) ^^^ 0xA001#16 else v >>> 1

/-- R119's loop: eight passes from `s ^ zext_16(b)`. -/
def crcBitSerial (s : Half) (b : Byte) : Half :=
  crcShift (crcShift (crcShift (crcShift (crcShift (crcShift (crcShift (crcShift (s ^^^ BitVec.ofNat 16 b.toNat))))))))

end Sys2Proof.Safety
end

