-- ==== Sys2Proof/Certificates/Slice0/Obligations.lean ====
section
/-! DEFINITION. The statements for the provers. Each docstring names the rule of spec/ it formalises. -/

open Sys2Proof Sys2Proof.Machine Sys2Proof.Safety

/-! ### Decoding and encoding -/

/-- `decode` and `encode` are inverse to each other, for every operation at every operand and for every legal word
(30_encoding.md, the last sentence under R86, which the spec marks as derived). -/
def Obligations.DecodeAndEncodeAgree : Prop :=
  (∀ i : Instr, decode (encode i) = .legal i) ∧
  (∀ (w : CmdWord) (i : Instr), decode w = .legal i → encode i = w)

/-- R86: decoding is a function of the word given by the pseudocode, and `encode` gives the words R86 lists. -/
def Obligations.DecodingFollowsThePseudocode : Prop :=
  (∀ w : CmdWord, (decode w).instr? =
    (let op := w.toNat / 0x1000000
     let arg := w.toNat % 0x1000000
     if op = 0x01 ∧ arg / 0x10000 = 0 then some (.crcSeed (BitVec.ofNat 16 arg))
     else if op = 0x02 ∧ arg / 0x100 = 0 then some (.crcByte (BitVec.ofNat 8 arg))
     else if op = 0x03 ∧ arg = 0 then some .crcRd
     else if op = 0x10 then some (.segStart (BitVec.ofNat 24 arg))
     else if op = 0x11 ∧ arg = 0 then some .segStep
     else if op = 0x12 ∧ arg = 0 then some .segRun
     else if op = 0x20 ∧ arg = 0 then some .stRd
     else none)) ∧
  (∀ v : Half, (encode (.crcSeed v)).toNat = 0x01000000 + v.toNat) ∧
  (∀ b : Byte, (encode (.crcByte b)).toNat = 0x02000000 + b.toNat) ∧
  (encode .crcRd).toNat = 0x03000000 ∧
  (∀ a : Addr, (encode (.segStart a)).toNat = 0x10000000 + a.toNat) ∧
  (encode .segStep).toNat = 0x11000000 ∧
  (encode .segRun).toNat = 0x12000000 ∧
  (encode .stRd).toNat = 0x20000000

/-- R83: the test `(w & mask) = match` of a row selects exactly the words that decode to that row's operation. -/
def Obligations.RowTestsSelectOperations : Prop :=
  ∀ w : CmdWord,
    (w &&& 0xFFFF0000#32 = 0x01000000#32 ↔ ∃ v, decode w = .legal (.crcSeed v)) ∧
    (w &&& 0xFFFFFF00#32 = 0x02000000#32 ↔ ∃ b, decode w = .legal (.crcByte b)) ∧
    (w &&& 0xFFFFFFFF#32 = 0x03000000#32 ↔ decode w = .legal .crcRd) ∧
    (w &&& 0xFF000000#32 = 0x10000000#32 ↔ ∃ a, decode w = .legal (.segStart a)) ∧
    (w &&& 0xFFFFFFFF#32 = 0x11000000#32 ↔ decode w = .legal .segStep) ∧
    (w &&& 0xFFFFFFFF#32 = 0x12000000#32 ↔ decode w = .legal .segRun) ∧
    (w &&& 0xFFFFFFFF#32 = 0x20000000#32 ↔ decode w = .legal .stRd)

/-- R84: a word is illegal exactly when no row of R83 accepts it; executing it sets CMDERR and changes nothing else;
the all-zero and the all-one word are illegal; 16843012 words are legal. -/
def Obligations.IllegalWordsAreThoseNoRowMatches : Prop :=
  (∀ w : CmdWord, (decode w).instr? = none ↔ opcodeMap.any (fun r => r.accepts w) = false) ∧
  (∀ (w : CmdWord) (s : State), (decode w).instr? = none → issueWord w s = .next { s with cmderr := true }) ∧
  (decode 0x00000000#32).instr? = none ∧
  (decode 0xFFFFFFFF#32).instr? = none ∧
  Set.ncard { w : CmdWord | (decode w).instr? ≠ none } = 16843012

/-- A sanity statement: words written out from R83's patterns and section 2.1 of 95_test_vectors.md. -/
def Obligations.SampleWordsDecode : Prop :=
  decode 0x01001234#32 = .legal (.crcSeed 0x1234#16) ∧
  decode 0x020000FF#32 = .legal (.crcByte 0xFF#8) ∧
  decode 0x03000000#32 = .legal .crcRd ∧
  decode 0x100FFFF0#32 = .legal (.segStart 0x0FFFF0#24) ∧
  decode 0x11000000#32 = .legal .segStep ∧
  decode 0x12000000#32 = .legal .segRun ∧
  decode 0x20000000#32 = .legal .stRd ∧
  decode 0x01800000#32 = .illegal .reservedBitSet ∧
  decode 0x13000000#32 = .illegal .undefinedOpcode

/-- R58: carried bytewise, a command word's bits 7:0 go first and its bits 31:24 last; what is carried is read back. -/
def Obligations.CommandWordsCarriedLowByteFirst : Prop :=
  ∀ (w : CmdWord) (rest : List Byte),
    wordBytes w = leBytes 4 w.toNat ∧ takeWord (wordBytes w ++ rest) = some (w, rest)

/-! ### Steps and the host's moves -/

/-- A step runs the decoded operation: when the host's next move is a command word that decodes to `i`, the step is
`exec i` at the state with that move made. There is nothing else around it (no program counter, R27). -/
def Obligations.StepRunsDecodedWord : Prop :=
  ∀ (s : State) (w : CmdWord) (rest : List HostMove) (i : Instr),
    s.moves = .command w :: rest → decode w = .legal i → step s = exec i { s with moves := rest }

/-- With no move of the host, a step changes nothing. The model's choice (log entry 3, DEDUCED). -/
def Obligations.StepIdlesWithoutMove : Prop :=
  ∀ s : State, s.moves = [] → step s = .next s

/-- R181: an illegal word sets CMDERR and changes nothing else (the word is not stored: no other field has it), the
block stays usable, and no legal operation sets or clears CMDERR. -/
def Obligations.CmdErrorSetsOnlyItsFlag : Prop :=
  (∀ (s : State) (w : CmdWord) (rest : List HostMove) (why : IllegalWord),
    s.moves = .command w :: rest → decode w = .illegal why →
    step s = .next { s with moves := rest, cmderr := true }) ∧
  (∀ (s : State) (w : CmdWord) (rest : List HostMove) (i : Instr),
    s.cmderr = true → s.moves = .command w :: rest → decode w = .legal i →
    step s = exec i { s with moves := rest }) ∧
  (∀ (i : Instr) (s t : State), exec i s = .next t → t.cmderr = s.cmderr)

/-- R210: reset gives every register its reset value, empties OUT and RSP, and leaves the bound image; it is the only
move that clears a sticky flag or takes anything from OUT or RSP. -/
def Obligations.ResetEventRestoresEveryRegister : Prop :=
  (∀ (s : State) (rest : List HostMove), s.moves = .reset :: rest →
    step s = .next
      { crc := 0, la := 0, ca := 0, off := 0, rem := 0, awrap := false, pberr := false, cmderr := false,
        outn := 0, out := [], rsp := [], img := s.img, moves := rest }) ∧
  (∀ s t : State, (∀ rest, s.moves ≠ .reset :: rest) → step s = .next t →
    (s.awrap = true → t.awrap = true) ∧ (s.pberr = true → t.pberr = true) ∧ (s.cmderr = true → t.cmderr = true) ∧
    s.out <+: t.out ∧ s.rsp <+: t.rsp)

/-- R34: the values after reset; ST reads 0x0001, SEG.STEP and SEG.RUN do nothing, CRC.RD returns 0x0000. -/
def Obligations.ResetLeavesTheSpecsValues : Prop :=
  State.reset.crc = 0x0000#16 ∧ State.reset.la = 0x000000#24 ∧ State.reset.ca = 0x000000#24 ∧
  State.reset.off = 0 ∧ State.reset.rem = 0 ∧
  State.reset.awrap = false ∧ State.reset.pberr = false ∧ State.reset.cmderr = false ∧
  State.reset.outn = 0 ∧ State.reset.out = [] ∧ State.reset.rsp = [] ∧
  exec .stRd State.reset = .next { State.reset with rsp := [0x0001#16] } ∧
  exec .segStep State.reset = .next State.reset ∧
  exec .segRun State.reset = .next State.reset ∧
  exec .crcRd State.reset = .next { State.reset with rsp := [0x0000#16] }

/-- Binding an image between runs replaces IMG and nothing else; a different image during a run is refused by name
(R212, R214, R222). What a host that breaks the rule meets is the model's choice (log entry 6); that a bind of an image
below 2^32 bytes never depends on the open LENW is R6. -/
def Obligations.ImageIsBoundBetweenRuns : Prop :=
  (∀ (s : State) (img : List Byte) (rest : List HostMove),
    s.moves = .bind img :: rest → img.length < 2 ^ 32 → s.rem = 0 →
    step s = .next { s with img := img, moves := rest }) ∧
  (∀ (s : State) (img : List Byte) (rest : List HostMove),
    s.moves = .bind img :: rest → img.length < 2 ^ 32 → s.rem ≠ 0 → img ≠ s.img →
    step s = .refused .imageChangedDuringRun)

/-- The invariant holds at reset. -/
def Obligations.InvariantHoldsAtReset : Prop := Inv State.reset

/-- Every step keeps the invariant: while a run goes on OFF + REM is the image's length, CA is the low 24 bits of
LA + OFF, OUTN counts OUT, the validator has not fired, and the bound image fits (R29, R31, R156, R157, R158). -/
def Obligations.StepKeepsInvariant : Prop :=
  ∀ s t : State, Inv s → step s = .next t → Inv t

/-- R8, total: in every state that meets the invariant every operation completes. -/
def Obligations.EveryOperationCompletes : Prop :=
  ∀ (i : Instr) (s : State), Inv s → ∃ t, exec i s = .next t

/-! ### The CRC engine -/

/-- R111: the parity table is the exclusive or of the four bits. -/
def Obligations.ParityTableIsBitParity : Prop :=
  ∀ n : BitVec 4, par n = (n[0] ^^ n[1] ^^ n[2] ^^ n[3])

/-- R115: CRC.SEED writes CRC and nothing else; the second of two seeds wins; a word with opcode 0x01 and a nonzero
reserved field raises CmdError without writing CRC, and every other word with that opcode is the CRC.SEED of its low
half. -/
def Obligations.CrcSeedWritesCrc : Prop :=
  (∀ (v : Half) (s : State), exec (.crcSeed v) s = .next { s with crc := v }) ∧
  (∀ (u v : Half) (s : State), issue [.crcSeed u, .crcSeed v] s = .next { s with crc := v }) ∧
  (∀ (w : CmdWord) (s : State), w.toNat / 0x1000000 = 0x01 → w.toNat / 0x10000 % 0x100 ≠ 0 →
    issueWord w s = .next { s with cmderr := true }) ∧
  (∀ (w : CmdWord) (s : State), w.toNat / 0x1000000 = 0x01 → w.toNat / 0x10000 % 0x100 = 0 →
    issueWord w s = .next { s with crc := BitVec.ofNat 16 w.toNat })

/-- R112 and R116: CRC.BYTE puts R112's expression of CRC and the byte into CRC and changes nothing else; the corner
cases of R116; a word with opcode 0x02 and a nonzero reserved field raises CmdError without changing CRC. -/
def Obligations.CrcByteUpdatesCrc : Prop :=
  (∀ (b : Byte) (s : State), exec (.crcByte b) s = .next { s with crc := crcUpdFormula s.crc b }) ∧
  (∀ (b : Byte) (s : State), BitVec.ofNat 8 s.crc.toNat = b →
    exec (.crcByte b) s = .next { s with crc := s.crc >>> 8 }) ∧
  (∀ n : Nat, crc16 (List.replicate n 0x00#8) = 0x0000#16) ∧
  (∀ (w : CmdWord) (s : State), w.toNat / 0x1000000 = 0x02 → w.toNat / 0x100 % 0x10000 ≠ 0 →
    issueWord w s = .next { s with cmderr := true }) ∧
  (∀ (w : CmdWord) (s : State), w.toNat / 0x1000000 = 0x02 → w.toNat / 0x100 % 0x10000 = 0 →
    issueWord w s = .next { s with crc := crcUpdFormula s.crc (BitVec.ofNat 8 w.toNat) })

/-- R117: CRC.RD appends CRC to RSP and changes nothing else, so a second read gives the same value; its word is
0x03000000 and any other word with opcode 0x03 is illegal; after reset it gives 0x0000; after SEG.STEP has emitted a
segment it gives that segment's CRC, and SEG.RUN ends in such a step; carried bytewise, the low byte goes first. -/
def Obligations.CrcRdAppendsCrc : Prop :=
  (∀ s : State, exec .crcRd s = .next { s with rsp := s.rsp ++ [s.crc] }) ∧
  (∀ s : State, issue [.crcRd, .crcRd] s = .next { s with rsp := s.rsp ++ [s.crc, s.crc] }) ∧
  decode 0x03000000#32 = .legal .crcRd ∧
  (∀ (w : CmdWord) (s : State), w.toNat / 0x1000000 = 0x03 → w ≠ 0x03000000#32 →
    issueWord w s = .next { s with cmderr := true }) ∧
  exec .crcRd State.reset = .next { State.reset with rsp := [0x0000#16] } ∧
  (∀ s t : State, s.rem ≠ 0 → exec .segStep s = .next t →
    exec .crcRd t = .next { t with rsp := t.rsp ++ [crc16 ((s.img.drop s.off).take (t.off - s.off))] }) ∧
  (∀ s t : State, s.rem ≠ 0 → exec .segRun s = .next t →
    ∃ k u, issue (List.replicate k .segStep) s = .next u ∧ u.rem ≠ 0 ∧ exec .segStep u = .next t) ∧
  (∀ v : Half, halfBytes v = [BitVec.ofNat 8 v.toNat, BitVec.ofNat 8 (v.toNat / 256)])

/-- The bit equations of the CRC that CRC.BYTE leaves (40_crc.md R118, which the spec marks as derived). -/
def Obligations.CrcByteBitEquations : Prop :=
  ∀ (b : Byte) (s t : State), exec (.crcByte b) s = .next t →
    ∀ (d : Nat → Bool) (p : Bool),
      (∀ i, i < 8 → d i = (b.getLsbD i ^^ s.crc.getLsbD i)) →
      p = (d 0 ^^ d 1 ^^ d 2 ^^ d 3 ^^ d 4 ^^ d 5 ^^ d 6 ^^ d 7) →
      t.crc.getLsbD 0 = (s.crc.getLsbD 8 ^^ p) ∧
      (∀ i, 1 ≤ i → i ≤ 5 → t.crc.getLsbD i = s.crc.getLsbD (8 + i)) ∧
      t.crc.getLsbD 6 = (s.crc.getLsbD 14 ^^ d 0) ∧
      t.crc.getLsbD 7 = (s.crc.getLsbD 15 ^^ d 1 ^^ d 0) ∧
      (∀ i, 8 ≤ i → i ≤ 13 → t.crc.getLsbD i = (d (i - 6) ^^ d (i - 7))) ∧
      t.crc.getLsbD 14 = (p ^^ d 7) ∧
      t.crc.getLsbD 15 = p

/-- The update equals the bit-serial loop, and `crc16` of the nine ASCII bytes "123456789" is 0xBB3D (40_crc.md R119,
which the spec marks as derived, and 95_test_vectors.md V-C3). -/
def Obligations.CrcUpdateIsBitSerial : Prop :=
  (∀ (s : Half) (b : Byte), crcUpd s b = crcBitSerial s b) ∧
  crc16 [0x31#8, 0x32#8, 0x33#8, 0x34#8, 0x35#8, 0x36#8, 0x37#8, 0x38#8, 0x39#8] = 0xBB3D#16

/-- R113: `CrcRun` takes the bytes first to last, each result the seed of the next, and leaves the seed of the empty
sequence; issuing CRC.BYTE for each byte of a sequence leaves it in CRC. -/
def Obligations.CrcRunFoldsTheBytes : Prop :=
  (∀ v : Half, crcRun v [] = v) ∧
  (∀ (v : Half) (b : Byte) (rest : List Byte), crcRun v (b :: rest) = crcRun (crcUpdFormula v b) rest) ∧
  (∀ (bytes : List Byte) (s : State),
    issue (bytes.map .crcByte) s = .next { s with crc := crcRun s.crc bytes })

/-- The run over `A ++ B` is the run over `B` seeded with the run over `A`: so CRC.BYTE issued for `A`, a CRC.RD, and
CRC.BYTE issued for `B` after the value read is seeded again, leave the CRC of the whole (40_crc.md R120, which the spec
marks as derived; 70_reset_and_hazards.md R216). -/
def Obligations.CrcRunComposes : Prop :=
  (∀ (v : Half) (A B : List Byte), crcRun v (A ++ B) = crcRun (crcRun v A) B) ∧
  (∀ (A B : List Byte) (s t : State), issue (A.map .crcByte ++ [.crcRd]) s = .next t →
    ∀ (u : State), t.rsp.getLast? = some u.crc →
      issue (B.map .crcByte) u = .next { u with crc := crcRun s.crc (A ++ B) })

/-- The update is XOR-linear, and its consequences (40_crc.md R121, which the spec marks as derived). -/
def Obligations.CrcUpdateIsLinear : Prop :=
  (∀ (s1 s2 : Half) (b1 b2 : Byte), crcUpd (s1 ^^^ s2) (b1 ^^^ b2) = crcUpd s1 b1 ^^^ crcUpd s2 b2) ∧
  crcUpd 0x0000#16 0x00#8 = 0x0000#16 ∧
  (∀ (s : Half) (b : Byte), crcUpd s b = crcUpd 0x0000#16 (b ^^^ BitVec.ofNat 8 s.toNat) ^^^ (s >>> 8)) ∧
  (∀ b : Byte, Function.Bijective (fun s : Half => crcUpd s b)) ∧
  Function.Injective (fun b : Byte => crcUpd 0x0000#16 b)

/-- Feeding a CRC its own low byte gives the CRC shifted right by 8, and then its own high byte gives 0; so the CRC over
data followed by its own CRC field is 0 (40_crc.md R122, which the spec marks as derived). -/
def Obligations.CrcResidueIsZero : Prop :=
  (∀ c : Half, crcUpd c (BitVec.ofNat 8 c.toNat) = c >>> 8) ∧
  (∀ c : Half, crcUpd (crcUpd c (BitVec.ofNat 8 c.toNat)) (BitVec.ofNat 8 (c.toNat / 256)) = 0x0000#16) ∧
  (∀ data : List Byte, crc16 (data ++ leBytes 2 (crc16 data).toNat) = 0x0000#16)

/-! ### The segmenter -/

/-- R141: SEG.START writes LA, CA, OFF and REM and nothing else, mid-run too; DONE reads 1 afterwards exactly when the
image is empty; every word with opcode 0x10 is legal; a run over an empty image is over at once and emits nothing. -/
def Obligations.SegStartBeginsRun : Prop :=
  (∀ (a : Addr) (s : State),
    exec (.segStart a) s = .next { s with la := a, ca := a, off := 0, rem := s.img.length }) ∧
  (∀ (a : Addr) (s t : State), exec (.segStart a) s = .next t → ((status t).getLsbD 0 = true ↔ s.img.length = 0)) ∧
  (∀ (w : CmdWord) (s : State), w.toNat / 0x1000000 = 0x10 →
    issueWord w s =
      .next { s with la := BitVec.ofNat 24 w.toNat, ca := BitVec.ofNat 24 w.toNat, off := 0, rem := s.img.length }) ∧
  (∀ (a : Addr) (s : State), s.img = [] →
    issue [.segStart a, .segRun, .segStep] s = .next { s with la := a, ca := a, off := 0, rem := 0 })

/-- SEG.STEP and SEG.RUN with nothing left change nothing at all, CRC included (R142, R143). -/
def Obligations.NothingLeftChangesNothing : Prop :=
  ∀ s : State, s.rem = 0 → exec .segStep s = .next s ∧ exec .segRun s = .next s

/-- R145, with R149, R150, R151 and R154: one segment step, whole, on every state in which the bytes of the segment are
there. The record is R87's; AWRAP and PBERR are set by their tests or left; every field not named is unchanged. -/
def Obligations.SegStepEmitsOneRecord : Prop :=
  ∀ (s : State) (n a : Nat) (data : List Byte),
    s.rem ≠ 0 →
    n = min s.rem (0x10000 - s.ca.toNat % 0x10000) →
    a = (s.la.toNat + s.off) % 0x1000000 →
    s.off + n ≤ s.img.length →
    data = (s.img.drop s.off).take n →
    exec .segStep s = .next
      { s with
        crc := crcRun 0x0000#16 data
        awrap := s.awrap || decide (0x1000000 ≤ s.la.toNat + s.off)
        pberr := s.pberr || decide (0x10000 < a % 0x10000 + n)
        out := s.out ++ recordBytes a n data (crcRun 0x0000#16 data)
        outn := s.outn + (7 + n)
        off := s.off + n
        rem := s.rem - n
        ca := BitVec.ofNat 24 (s.ca.toNat + n) }

/-- The frame of SEG.STEP over memory: a position of OUT outside the `7 + seg_len` positions from OUTN on reads as
before, the positions the step stores to read as the record's bytes, and the image is unchanged (R53, R150). -/
def Obligations.SegStepStoresOnlyItsRecord : Prop :=
  ∀ (s t : State) (n : Nat), Memory.wf s → s.rem ≠ 0 →
    n = min s.rem (0x10000 - s.ca.toNat % 0x10000) → exec .segStep s = .next t →
    (∀ pos, pos < s.outn ∨ s.outn + (7 + n) ≤ pos → readOut t pos = readOut s pos) ∧
    (∀ k, k < 7 + n → readOut t (s.outn + k) =
      (recordBytes ((s.la.toNat + s.off) % 0x1000000) n ((s.img.drop s.off).take n) t.crc)[k]?) ∧
    (∀ off, memRead t.img off = memRead s.img off)

/-- Where the bytes of the segment do not all lie in the image, SEG.STEP and SEG.RUN stop by name. R52 asks for a fault
or a stuck state and shows no run comes here; which of the two is the model's choice (log entry 7). -/
def Obligations.ReadsOutsideTheImageFault : Prop :=
  ∀ s : State, s.rem ≠ 0 → s.img.length < s.off + min s.rem (0x10000 - s.ca.toNat % 0x10000) →
    exec .segStep s = .fault .imageReadOutOfRange ∧ exec .segRun s = .fault .imageReadOutOfRange

/-- R143: SEG.RUN is SEG.STEP repeated while REM > 0: with nothing left it changes nothing, afterwards DONE reads 1, its
effect is that of some number of SEG.STEPs, and any mixture of the two gives the same result. -/
def Obligations.SegRunIsRepeatedSegStep : Prop :=
  (∀ s : State, s.rem ≠ 0 →
    exec .segRun s =
      (match exec .segStep s with
       | .next t => exec .segRun t
       | .fault r => .fault r
       | .refused r => .refused r)) ∧
  (∀ s : State, s.rem = 0 → exec .segRun s = .next s) ∧
  (∀ s t : State, exec .segRun s = .next t →
    (status t).getLsbD 0 = true ∧ ∃ k, issue (List.replicate k .segStep) s = .next t) ∧
  (∀ (s t : State) (k : Nat), issue (List.replicate k .segStep) s = .next t → exec .segRun t = exec .segRun s)

/-- A segment step lowers REM by at least one, SEG.RUN is at most REM steps of SEG.STEP, and right after SEG.START it is
exactly `nseg` of them, REM being above 0 before the last (41_segmenter.md R155, with the `nseg` of R160, which the spec
marks as derived). -/
def Obligations.SegRunTerminatesWithinRem : Prop :=
  (∀ s t : State, s.rem ≠ 0 → exec .segStep s = .next t → t.rem < s.rem) ∧
  (∀ s t : State, exec .segRun s = .next t → ∃ k, k ≤ s.rem ∧ issue (List.replicate k .segStep) s = .next t) ∧
  (∀ (s : State) (A : Addr) (k : Nat), k ≤ segCount A s.img.length →
    ∃ t, issue (.segStart A :: List.replicate k .segStep) s = .next t ∧ (t.rem = 0 ↔ k = segCount A s.img.length))

/-- SEG.RUN completes from every state whose remaining bytes lie in the image, at the end of the image, and changes
neither LA, CMDERR, RSP, the image nor any byte of OUT already written (R143, R221). -/
def Obligations.SegRunCompletes : Prop :=
  ∀ s : State, (s.rem ≠ 0 → s.off + s.rem ≤ s.img.length) →
    ∃ t, exec .segRun s = .next t ∧
      t.rem = 0 ∧ t.off = s.off + s.rem ∧ t.ca = BitVec.ofNat 24 (s.ca.toNat + s.rem) ∧
      t.la = s.la ∧ t.cmderr = s.cmderr ∧ t.rsp = s.rsp ∧ t.img = s.img ∧ t.moves = s.moves ∧
      s.out <+: t.out ∧ t.outn + s.out.length = s.outn + t.out.length

/-- From ANY state, SEG.START A and SEG.RUN append exactly the records of the segments R160 lists, by R87's
bytes, and leave the registers as R221 and R163 say; of the prior state only OUT, RSP, the flags and, for an empty
image, CRC show in the result (41_segmenter.md R160, R162, R163 and R164, 70_reset_and_hazards.md R221, most of which the
spec marks as derived). -/
def Obligations.EncodeAppendsTheRunsRecords : Prop :=
  ∀ (s : State) (A : Addr),
    issue [.segStart A, .segRun] s = .next
      { s with
        la := A
        ca := BitVec.ofNat 24 (A.toNat + s.img.length)
        off := s.img.length
        rem := 0
        crc := ((runSegments s.img A).getLast?.map Segment.crc).getD s.crc
        awrap := s.awrap || decide (1 ≤ s.img.length ∧ 0x1000000 < A.toNat + s.img.length)
        out := s.out ++ (runSegments s.img A).flatMap segmentBytes
        outn := s.outn + (s.img.length + 7 * segCount A s.img.length) }

/-- The data of a run's segments, joined in order, is the image; each segment starts where the ones before it end, has a
length from 1 to 65536 that is its data's, and the records have `L + 7 * nseg` bytes (41_segmenter.md R159 and R160, which
the spec marks as derived). -/
def Obligations.SegmentsCoverTheImage : Prop :=
  ∀ (img : List Byte) (A : Addr),
    (runSegments img A).flatMap Segment.data = img ∧
    ((runSegments img A).flatMap segmentBytes).length = img.length + 7 * segCount A img.length ∧
    (∀ k, k < segCount A img.length →
      segOffset A k = (((runSegments img A).take k).map Segment.length).sum ∧
      1 ≤ (runSegment img A k).length ∧ (runSegment img A k).length ≤ 65536 ∧
      (runSegment img A k).data.length = (runSegment img A k).length)

/-- R146: the page room is from 1 to 65536, and 65536 exactly when the low 16 bits of CA are 0. -/
def Obligations.PageRoomIsOneToPage : Prop :=
  ∀ ca : Addr, pageRoom ca = 0x10000 - ca.toNat % 0x10000 ∧ 1 ≤ pageRoom ca ∧ pageRoom ca ≤ 65536 ∧
    (pageRoom ca = 65536 ↔ ca.toNat % 0x10000 = 0)

/-- R161: while something remains the segment length is from 1 to 65536, the length minus one fits 16 bits, and adding 1 to
the stored field gives the length back. -/
def Obligations.SegmentLengthIsNeverZero : Prop :=
  ∀ (rem : Nat) (ca : Addr), rem ≠ 0 →
    1 ≤ segLen rem ca ∧ segLen rem ca ≤ 65536 ∧ segLen rem ca - 1 ≤ 65535 ∧
    (lengthField (segLen rem ca)).toNat + 1 = segLen rem ca ∧
    storedLength (lo8 (lengthField (segLen rem ca))) (mid8 (lengthField (segLen rem ca))) = segLen rem ca

/-- The page-boundary predicate (R152), and its form by first and last byte, which the spec marks as derived. -/
def Obligations.PageOkMeansOnePage : Prop :=
  ∀ (a : Addr) (n : Nat), 1 ≤ n → n ≤ 65536 →
    (pageOK a n = true ↔ a.toNat % 0x10000 + n ≤ 0x10000) ∧
    (pageOK a n = true ↔
      a.toNat / 0x10000 = (a.toNat + n - 1) / 0x10000 ∧ a.toNat + n - 1 ≤ 0xFFFFFF)

/-- Where CA is the low 24 bits of LA + OFF, the segment a step emits does not cross a page, so the step leaves
PBERR as it was, and no run of SEG.STEP or SEG.RUN sets it (41_segmenter.md R158, which the spec marks as derived). -/
def Obligations.SegmentsNeverCrossAPage : Prop :=
  ∀ s : State, s.ca = BitVec.ofNat 24 (s.la.toNat + s.off) →
    pageOK (segAddress s.la s.off) (segLen s.rem s.ca) = true ∧
    (∀ t, exec .segStep s = .next t → t.pberr = s.pberr) ∧
    (∀ t, exec .segRun s = .next t → t.pberr = s.pberr)

/-- A segment that is not the last ends at a page boundary (its last byte at 0xFFFF of its page), so the next one starts
there (20_memory.md R60, whose consequence the spec marks as derived). -/
def Obligations.SegmentsSplitAtPageBoundaries : Prop :=
  ∀ s t : State, s.rem ≠ 0 → exec .segStep s = .next t → t.rem ≠ 0 →
    t.ca.toNat % 0x10000 = 0 ∧ (s.ca.toNat + (t.off - s.off) - 1) % 0x10000 = 0xFFFF

/-- SEG.START establishes `OFF + REM = len(IMG)`; every operation but SEG.START keeps the sum, and none writes the image
(41_segmenter.md R156, which the spec marks as derived). -/
def Obligations.OffPlusRemIsKept : Prop :=
  (∀ (a : Addr) (s t : State), exec (.segStart a) s = .next t → t.off + t.rem = t.img.length) ∧
  (∀ (i : Instr) (s t : State), exec i s = .next t →
    t.img = s.img ∧ ((∀ a, i ≠ .segStart a) → t.off + t.rem = s.off + s.rem))

/-- A complete run sets AWRAP exactly when the image is not empty and passes 2^24; and a segment's exact address range
holds no multiple of 0x10000 but possibly its first address (41_segmenter.md R163, which the spec marks as derived). -/
def Obligations.AwrapSetExactlyPastTheAddressSpace : Prop :=
  (∀ (s t : State) (A : Addr), s.awrap = false → issue [.segStart A, .segRun] s = .next t →
    (t.awrap = true ↔ 1 ≤ s.img.length ∧ 0x1000000 < A.toNat + s.img.length)) ∧
  (∀ (img : List Byte) (A : Addr) (k x : Nat), k < segCount A img.length →
    A.toNat + segOffset A k < x → x < A.toNat + segOffset A k + segLength A img.length k → x % 0x10000 ≠ 0)

/-- A record is `7 + n` bytes, and its segment is read back from it, whatever follows it, by its own length field
(30_encoding.md R92 and R94, whose conclusions the spec marks as derived). -/
def Obligations.RecordsParseBack : Prop :=
  ∀ (g : Segment) (rest : List Byte), 1 ≤ g.length → g.length ≤ 65536 → g.data.length = g.length →
    (segmentBytes g).length = 7 + g.length ∧ parseRecord (segmentBytes g ++ rest) = some (g, rest)

/-- As two runs: what CRC holds and what RSP holds before a segment step or run with something to emit has no
effect on it but that RSP keeps its content. CRC.SEED, CRC.BYTE and CRC.RD write nothing else, so none of them issued
between two segment steps can change a record (70_reset_and_hazards.md R218, which the spec marks as derived). -/
def Obligations.HostCrcCannotChangeRecords : Prop :=
  ∀ (s t : State) (c : Half) (r : List Half), s.rem ≠ 0 →
    (exec .segStep s = .next t → exec .segStep { s with crc := c, rsp := r } = .next { t with rsp := r }) ∧
    (exec .segRun s = .next t → exec .segRun { s with crc := c, rsp := r } = .next { t with rsp := r })

/-! ### Streams and the status read -/

/-- R29: OUT is empty after reset, OUTN counts its bytes and no operation breaks that, only SEG.STEP and SEG.RUN append to
it, no operation removes or rewrites a byte of it, and the host reads positions 0 to OUTN - 1. -/
def Obligations.OutOnlyGrows : Prop :=
  State.reset.out = [] ∧ State.reset.outn = 0 ∧
  (∀ (i : Instr) (s t : State), Memory.wf s → exec i s = .next t →
    Memory.wf t ∧ s.outn ≤ t.outn ∧
    (∀ pos, pos < s.outn → readOut t pos = readOut s pos) ∧
    (i ≠ .segStep → i ≠ .segRun → t.out = s.out ∧ t.outn = s.outn)) ∧
  (∀ (s : State) (pos : Nat), Memory.wf s → ((readOut s pos).isSome ↔ pos < s.outn))

/-- R23: only SEG.START writes LA, and it writes its operand. -/
def Obligations.OnlySegStartWritesLa : Prop :=
  ∀ (i : Instr) (s t : State), exec i s = .next t →
    t.la = (match i with
      | .segStart a => a
      | .crcSeed _ => s.la | .crcByte _ => s.la | .crcRd => s.la | .segStep => s.la | .segRun => s.la | .stRd => s.la)

/-- R30 and R56: RSP is empty after reset, CRC.RD appends CRC to it, ST.RD appends ST, nothing else appends, and a
response is carried low byte first. -/
def Obligations.OnlyReadsRespond : Prop :=
  State.reset.rsp = [] ∧
  (∀ (i : Instr) (s t : State), exec i s = .next t →
    t.rsp = s.rsp ++ (match i with
      | .crcRd => [s.crc]
      | .stRd => [status s]
      | .crcSeed _ => [] | .crcByte _ => [] | .segStart _ => [] | .segStep => [] | .segRun => [])) ∧
  (∀ v : Half, halfBytes v = leBytes 2 v.toNat)

/-- R144: ST.RD appends the status word and changes nothing else: bit 0 DONE, bit 1 AWRAP, bit 2 PBERR, bit 3 CMDERR,
bits 15:4 zero, so that it is at most 0x000F; after reset it is 0x0001; any other word with opcode 0x20 is illegal. -/
def Obligations.StRdAppendsStatus : Prop :=
  (∀ s : State, ∃ v : Half, exec .stRd s = .next { s with rsp := s.rsp ++ [v] } ∧
    v.getLsbD 0 = decide (s.rem = 0) ∧ v.getLsbD 1 = s.awrap ∧ v.getLsbD 2 = s.pberr ∧ v.getLsbD 3 = s.cmderr ∧
    (∀ i, 4 ≤ i → v.getLsbD i = false) ∧ v.toNat ≤ 0x000F) ∧
  exec .stRd State.reset = .next { State.reset with rsp := [0x0001#16] } ∧
  decode 0x20000000#32 = .legal .stRd ∧
  (∀ (w : CmdWord) (s : State), w.toNat / 0x1000000 = 0x20 → w ≠ 0x20000000#32 →
    issueWord w s = .next { s with cmderr := true })

/-! ### The assembler and its pseudo-operations -/

/-- The range rule of 30_encoding.md R95: a source operation whose operand is out of the range of its format is an
assembly error and gives no word; one in range gives the operation with that operand. -/
def Obligations.AssemblerRejectsOperandsOutOfRange : Prop :=
  (∀ n : Nat, assembleOp (.crcSeed n) =
    if 0xFFFF < n then .error .operandOutOfRange else .ok (.crcSeed (BitVec.ofNat 16 n))) ∧
  (∀ n : Nat, assembleOp (.crcByte n) =
    if 0xFF < n then .error .operandOutOfRange else .ok (.crcByte (BitVec.ofNat 8 n))) ∧
  (∀ n : Nat, assembleOp (.segStart n) =
    if 0xFFFFFF < n then .error .operandOutOfRange else .ok (.segStart (BitVec.ofNat 24 n)))

/-- R96: what each pseudo-operation, assembled with operands in range, does when its operations are issued: CRC.CLR is the
zero seed; CRC.BYTES feeds its bytes; CRC16 appends `crc16` of its bytes to RSP; ENCODE is SEG.START then SEG.RUN. -/
def Obligations.PseudoOperationsExpand : Prop :=
  assembleOps (PseudoOp.expand .crcClr) = .ok [.crcSeed 0x0000#16] ∧
  (∀ bytes : List Byte,
    assembleOps (PseudoOp.expand (.crcBytes (bytes.map BitVec.toNat))) = .ok (bytes.map .crcByte)) ∧
  (∀ (bytes : List Byte) (s : State), ∃ ops,
    assembleOps (PseudoOp.expand (.crc16 (bytes.map BitVec.toNat))) = .ok ops ∧
    ops = .crcSeed 0x0000#16 :: bytes.map .crcByte ++ [.crcRd] ∧
    issue ops s = .next { s with crc := crc16 bytes, rsp := s.rsp ++ [crc16 bytes] }) ∧
  (∀ a : Addr, assembleOps (PseudoOp.expand (.encode a.toNat)) = .ok [.segStart a, .segRun])
end

