-- ==== Sys2Proof/Laws/Operands.lean ====
section
/-! SUPPORT. The operand and flag computations as plain arithmetic. -/

namespace Sys2Proof.Machine

/-- The in-page part is the remainder by the page size. -/
theorem inPage_eq (a : Addr) : inPage a = a.toNat % 0x10000 := by
  unfold inPage
  rw [BitVec.toNat_and]
  exact Nat.and_two_pow_sub_one_eq_mod a.toNat 16

theorem pageRoom_eq (ca : Addr) : pageRoom ca = 0x10000 - ca.toNat % 0x10000 := by
  rw [pageRoom, inPage_eq]; rfl

theorem pageRoom_pos (ca : Addr) : 0 < pageRoom ca := by
  rw [pageRoom_eq]; omega

theorem pageRoom_le (ca : Addr) : pageRoom ca ≤ 65536 := by
  rw [pageRoom_eq]; omega

theorem segLen_eq (rem : Nat) (ca : Addr) : segLen rem ca = min rem (0x10000 - ca.toNat % 0x10000) := by
  rw [segLen, pageRoom_eq]

theorem segLen_le_rem (rem : Nat) (ca : Addr) : segLen rem ca ≤ rem := Nat.min_le_left _ _

theorem segLen_pos {rem : Nat} (ca : Addr) (h : rem ≠ 0) : 0 < segLen rem ca := by
  have := pageRoom_pos ca
  unfold segLen
  omega

theorem segLen_le_page (rem : Nat) (ca : Addr) : segLen rem ca ≤ 65536 :=
  le_trans (Nat.min_le_right _ _) (pageRoom_le ca)

@[simp] theorem trunc24_toNat (n : Nat) : (trunc24 n).toNat = n % 0x1000000 := by
  simp [trunc24]

theorem segAddress_toNat (la : Addr) (off : Nat) : (segAddress la off).toNat = (la.toNat + off) % 0x1000000 := by
  simp [segAddress, addrSum]

theorem pageOK_iff (a : Addr) (n : Nat) : pageOK a n = true ↔ a.toNat % 0x10000 + n ≤ 0x10000 := by
  rw [← inPage_eq]
  exact decide_eq_true_iff

theorem addrWraps_iff (la : Addr) (off : Nat) : addrWraps la off = true ↔ 0x1000000 ≤ la.toNat + off :=
  decide_eq_true_iff

@[simp] theorem doneFlag_iff (rem : Nat) : doneFlag rem = true ↔ rem = 0 := decide_eq_true_iff

@[simp] theorem halfBytes_length (v : Half) : (halfBytes v).length = 2 := rfl

@[simp] theorem addrBytes_length (a : Addr) : (addrBytes a).length = 3 := rfl

/-- A record is `7 + n` bytes long (30_encoding.md R92). -/
theorem serialise_length (g : Segment) : (serialise g).length = 7 + g.data.length := by
  simp [serialise]; omega

end Sys2Proof.Machine
end

