-- ==== Sys2Proof/Laws/State.lean ====
section
/-! SUPPORT. What each register, stream and flag update of Machine/Ops.lean does to each field, one lemma per field. -/

namespace Sys2Proof.Machine

variable (s : State)

/-! ### writeCrc -/

@[simp] theorem writeCrc_crc (v : Half) : (writeCrc v s).crc = v := rfl
@[simp] theorem writeCrc_la (v : Half) : (writeCrc v s).la = s.la := rfl
@[simp] theorem writeCrc_ca (v : Half) : (writeCrc v s).ca = s.ca := rfl
@[simp] theorem writeCrc_off (v : Half) : (writeCrc v s).off = s.off := rfl
@[simp] theorem writeCrc_rem (v : Half) : (writeCrc v s).rem = s.rem := rfl
@[simp] theorem writeCrc_awrap (v : Half) : (writeCrc v s).awrap = s.awrap := rfl
@[simp] theorem writeCrc_pberr (v : Half) : (writeCrc v s).pberr = s.pberr := rfl
@[simp] theorem writeCrc_cmderr (v : Half) : (writeCrc v s).cmderr = s.cmderr := rfl
@[simp] theorem writeCrc_outn (v : Half) : (writeCrc v s).outn = s.outn := rfl
@[simp] theorem writeCrc_out (v : Half) : (writeCrc v s).out = s.out := rfl
@[simp] theorem writeCrc_rsp (v : Half) : (writeCrc v s).rsp = s.rsp := rfl
@[simp] theorem writeCrc_img (v : Half) : (writeCrc v s).img = s.img := rfl
@[simp] theorem writeCrc_moves (v : Half) : (writeCrc v s).moves = s.moves := rfl

/-! ### writeLa -/

@[simp] theorem writeLa_crc (v : Addr) : (writeLa v s).crc = s.crc := rfl
@[simp] theorem writeLa_la (v : Addr) : (writeLa v s).la = v := rfl
@[simp] theorem writeLa_ca (v : Addr) : (writeLa v s).ca = s.ca := rfl
@[simp] theorem writeLa_off (v : Addr) : (writeLa v s).off = s.off := rfl
@[simp] theorem writeLa_rem (v : Addr) : (writeLa v s).rem = s.rem := rfl
@[simp] theorem writeLa_awrap (v : Addr) : (writeLa v s).awrap = s.awrap := rfl
@[simp] theorem writeLa_pberr (v : Addr) : (writeLa v s).pberr = s.pberr := rfl
@[simp] theorem writeLa_cmderr (v : Addr) : (writeLa v s).cmderr = s.cmderr := rfl
@[simp] theorem writeLa_outn (v : Addr) : (writeLa v s).outn = s.outn := rfl
@[simp] theorem writeLa_out (v : Addr) : (writeLa v s).out = s.out := rfl
@[simp] theorem writeLa_rsp (v : Addr) : (writeLa v s).rsp = s.rsp := rfl
@[simp] theorem writeLa_img (v : Addr) : (writeLa v s).img = s.img := rfl
@[simp] theorem writeLa_moves (v : Addr) : (writeLa v s).moves = s.moves := rfl

/-! ### writeCa -/

@[simp] theorem writeCa_crc (v : Addr) : (writeCa v s).crc = s.crc := rfl
@[simp] theorem writeCa_la (v : Addr) : (writeCa v s).la = s.la := rfl
@[simp] theorem writeCa_ca (v : Addr) : (writeCa v s).ca = v := rfl
@[simp] theorem writeCa_off (v : Addr) : (writeCa v s).off = s.off := rfl
@[simp] theorem writeCa_rem (v : Addr) : (writeCa v s).rem = s.rem := rfl
@[simp] theorem writeCa_awrap (v : Addr) : (writeCa v s).awrap = s.awrap := rfl
@[simp] theorem writeCa_pberr (v : Addr) : (writeCa v s).pberr = s.pberr := rfl
@[simp] theorem writeCa_cmderr (v : Addr) : (writeCa v s).cmderr = s.cmderr := rfl
@[simp] theorem writeCa_outn (v : Addr) : (writeCa v s).outn = s.outn := rfl
@[simp] theorem writeCa_out (v : Addr) : (writeCa v s).out = s.out := rfl
@[simp] theorem writeCa_rsp (v : Addr) : (writeCa v s).rsp = s.rsp := rfl
@[simp] theorem writeCa_img (v : Addr) : (writeCa v s).img = s.img := rfl
@[simp] theorem writeCa_moves (v : Addr) : (writeCa v s).moves = s.moves := rfl

/-! ### writeOff -/

@[simp] theorem writeOff_crc (v : Nat) : (writeOff v s).crc = s.crc := rfl
@[simp] theorem writeOff_la (v : Nat) : (writeOff v s).la = s.la := rfl
@[simp] theorem writeOff_ca (v : Nat) : (writeOff v s).ca = s.ca := rfl
@[simp] theorem writeOff_off (v : Nat) : (writeOff v s).off = v := rfl
@[simp] theorem writeOff_rem (v : Nat) : (writeOff v s).rem = s.rem := rfl
@[simp] theorem writeOff_awrap (v : Nat) : (writeOff v s).awrap = s.awrap := rfl
@[simp] theorem writeOff_pberr (v : Nat) : (writeOff v s).pberr = s.pberr := rfl
@[simp] theorem writeOff_cmderr (v : Nat) : (writeOff v s).cmderr = s.cmderr := rfl
@[simp] theorem writeOff_outn (v : Nat) : (writeOff v s).outn = s.outn := rfl
@[simp] theorem writeOff_out (v : Nat) : (writeOff v s).out = s.out := rfl
@[simp] theorem writeOff_rsp (v : Nat) : (writeOff v s).rsp = s.rsp := rfl
@[simp] theorem writeOff_img (v : Nat) : (writeOff v s).img = s.img := rfl
@[simp] theorem writeOff_moves (v : Nat) : (writeOff v s).moves = s.moves := rfl

/-! ### writeRem -/

@[simp] theorem writeRem_crc (v : Nat) : (writeRem v s).crc = s.crc := rfl
@[simp] theorem writeRem_la (v : Nat) : (writeRem v s).la = s.la := rfl
@[simp] theorem writeRem_ca (v : Nat) : (writeRem v s).ca = s.ca := rfl
@[simp] theorem writeRem_off (v : Nat) : (writeRem v s).off = s.off := rfl
@[simp] theorem writeRem_rem (v : Nat) : (writeRem v s).rem = v := rfl
@[simp] theorem writeRem_awrap (v : Nat) : (writeRem v s).awrap = s.awrap := rfl
@[simp] theorem writeRem_pberr (v : Nat) : (writeRem v s).pberr = s.pberr := rfl
@[simp] theorem writeRem_cmderr (v : Nat) : (writeRem v s).cmderr = s.cmderr := rfl
@[simp] theorem writeRem_outn (v : Nat) : (writeRem v s).outn = s.outn := rfl
@[simp] theorem writeRem_out (v : Nat) : (writeRem v s).out = s.out := rfl
@[simp] theorem writeRem_rsp (v : Nat) : (writeRem v s).rsp = s.rsp := rfl
@[simp] theorem writeRem_img (v : Nat) : (writeRem v s).img = s.img := rfl
@[simp] theorem writeRem_moves (v : Nat) : (writeRem v s).moves = s.moves := rfl

/-! ### outByte -/

@[simp] theorem outByte_crc (b : Byte) : (outByte b s).crc = s.crc := rfl
@[simp] theorem outByte_la (b : Byte) : (outByte b s).la = s.la := rfl
@[simp] theorem outByte_ca (b : Byte) : (outByte b s).ca = s.ca := rfl
@[simp] theorem outByte_off (b : Byte) : (outByte b s).off = s.off := rfl
@[simp] theorem outByte_rem (b : Byte) : (outByte b s).rem = s.rem := rfl
@[simp] theorem outByte_awrap (b : Byte) : (outByte b s).awrap = s.awrap := rfl
@[simp] theorem outByte_pberr (b : Byte) : (outByte b s).pberr = s.pberr := rfl
@[simp] theorem outByte_cmderr (b : Byte) : (outByte b s).cmderr = s.cmderr := rfl
@[simp] theorem outByte_outn (b : Byte) : (outByte b s).outn = s.outn + 1 := rfl
@[simp] theorem outByte_out (b : Byte) : (outByte b s).out = s.out ++ [b] := rfl
@[simp] theorem outByte_rsp (b : Byte) : (outByte b s).rsp = s.rsp := rfl
@[simp] theorem outByte_img (b : Byte) : (outByte b s).img = s.img := rfl
@[simp] theorem outByte_moves (b : Byte) : (outByte b s).moves = s.moves := rfl

/-! ### outBytes -/

@[simp] theorem outBytes_crc (bs : List Byte) : (outBytes bs s).crc = s.crc := rfl
@[simp] theorem outBytes_la (bs : List Byte) : (outBytes bs s).la = s.la := rfl
@[simp] theorem outBytes_ca (bs : List Byte) : (outBytes bs s).ca = s.ca := rfl
@[simp] theorem outBytes_off (bs : List Byte) : (outBytes bs s).off = s.off := rfl
@[simp] theorem outBytes_rem (bs : List Byte) : (outBytes bs s).rem = s.rem := rfl
@[simp] theorem outBytes_awrap (bs : List Byte) : (outBytes bs s).awrap = s.awrap := rfl
@[simp] theorem outBytes_pberr (bs : List Byte) : (outBytes bs s).pberr = s.pberr := rfl
@[simp] theorem outBytes_cmderr (bs : List Byte) : (outBytes bs s).cmderr = s.cmderr := rfl
@[simp] theorem outBytes_outn (bs : List Byte) : (outBytes bs s).outn = s.outn + bs.length := rfl
@[simp] theorem outBytes_out (bs : List Byte) : (outBytes bs s).out = s.out ++ bs := rfl
@[simp] theorem outBytes_rsp (bs : List Byte) : (outBytes bs s).rsp = s.rsp := rfl
@[simp] theorem outBytes_img (bs : List Byte) : (outBytes bs s).img = s.img := rfl
@[simp] theorem outBytes_moves (bs : List Byte) : (outBytes bs s).moves = s.moves := rfl

/-! ### respond -/

@[simp] theorem respond_crc (v : Half) : (respond v s).crc = s.crc := rfl
@[simp] theorem respond_la (v : Half) : (respond v s).la = s.la := rfl
@[simp] theorem respond_ca (v : Half) : (respond v s).ca = s.ca := rfl
@[simp] theorem respond_off (v : Half) : (respond v s).off = s.off := rfl
@[simp] theorem respond_rem (v : Half) : (respond v s).rem = s.rem := rfl
@[simp] theorem respond_awrap (v : Half) : (respond v s).awrap = s.awrap := rfl
@[simp] theorem respond_pberr (v : Half) : (respond v s).pberr = s.pberr := rfl
@[simp] theorem respond_cmderr (v : Half) : (respond v s).cmderr = s.cmderr := rfl
@[simp] theorem respond_outn (v : Half) : (respond v s).outn = s.outn := rfl
@[simp] theorem respond_out (v : Half) : (respond v s).out = s.out := rfl
@[simp] theorem respond_rsp (v : Half) : (respond v s).rsp = s.rsp ++ [v] := rfl
@[simp] theorem respond_img (v : Half) : (respond v s).img = s.img := rfl
@[simp] theorem respond_moves (v : Half) : (respond v s).moves = s.moves := rfl

/-! ### raiseCmdError -/

@[simp] theorem raiseCmdError_crc : (raiseCmdError s).crc = s.crc := rfl
@[simp] theorem raiseCmdError_la : (raiseCmdError s).la = s.la := rfl
@[simp] theorem raiseCmdError_ca : (raiseCmdError s).ca = s.ca := rfl
@[simp] theorem raiseCmdError_off : (raiseCmdError s).off = s.off := rfl
@[simp] theorem raiseCmdError_rem : (raiseCmdError s).rem = s.rem := rfl
@[simp] theorem raiseCmdError_awrap : (raiseCmdError s).awrap = s.awrap := rfl
@[simp] theorem raiseCmdError_pberr : (raiseCmdError s).pberr = s.pberr := rfl
@[simp] theorem raiseCmdError_cmderr : (raiseCmdError s).cmderr = true := rfl
@[simp] theorem raiseCmdError_outn : (raiseCmdError s).outn = s.outn := rfl
@[simp] theorem raiseCmdError_out : (raiseCmdError s).out = s.out := rfl
@[simp] theorem raiseCmdError_rsp : (raiseCmdError s).rsp = s.rsp := rfl
@[simp] theorem raiseCmdError_img : (raiseCmdError s).img = s.img := rfl
@[simp] theorem raiseCmdError_moves : (raiseCmdError s).moves = s.moves := rfl

/-! ### recordWrap -/

@[simp] theorem recordWrap_crc (w : Bool) : (recordWrap w s).crc = s.crc := rfl
@[simp] theorem recordWrap_la (w : Bool) : (recordWrap w s).la = s.la := rfl
@[simp] theorem recordWrap_ca (w : Bool) : (recordWrap w s).ca = s.ca := rfl
@[simp] theorem recordWrap_off (w : Bool) : (recordWrap w s).off = s.off := rfl
@[simp] theorem recordWrap_rem (w : Bool) : (recordWrap w s).rem = s.rem := rfl
@[simp] theorem recordWrap_awrap (w : Bool) : (recordWrap w s).awrap = (s.awrap || w) := rfl
@[simp] theorem recordWrap_pberr (w : Bool) : (recordWrap w s).pberr = s.pberr := rfl
@[simp] theorem recordWrap_cmderr (w : Bool) : (recordWrap w s).cmderr = s.cmderr := rfl
@[simp] theorem recordWrap_outn (w : Bool) : (recordWrap w s).outn = s.outn := rfl
@[simp] theorem recordWrap_out (w : Bool) : (recordWrap w s).out = s.out := rfl
@[simp] theorem recordWrap_rsp (w : Bool) : (recordWrap w s).rsp = s.rsp := rfl
@[simp] theorem recordWrap_img (w : Bool) : (recordWrap w s).img = s.img := rfl
@[simp] theorem recordWrap_moves (w : Bool) : (recordWrap w s).moves = s.moves := rfl

/-! ### recordPageCheck -/

@[simp] theorem recordPageCheck_crc (ok : Bool) : (recordPageCheck ok s).crc = s.crc := rfl
@[simp] theorem recordPageCheck_la (ok : Bool) : (recordPageCheck ok s).la = s.la := rfl
@[simp] theorem recordPageCheck_ca (ok : Bool) : (recordPageCheck ok s).ca = s.ca := rfl
@[simp] theorem recordPageCheck_off (ok : Bool) : (recordPageCheck ok s).off = s.off := rfl
@[simp] theorem recordPageCheck_rem (ok : Bool) : (recordPageCheck ok s).rem = s.rem := rfl
@[simp] theorem recordPageCheck_awrap (ok : Bool) : (recordPageCheck ok s).awrap = s.awrap := rfl
@[simp] theorem recordPageCheck_pberr (ok : Bool) : (recordPageCheck ok s).pberr = (s.pberr || !ok) := rfl
@[simp] theorem recordPageCheck_cmderr (ok : Bool) : (recordPageCheck ok s).cmderr = s.cmderr := rfl
@[simp] theorem recordPageCheck_outn (ok : Bool) : (recordPageCheck ok s).outn = s.outn := rfl
@[simp] theorem recordPageCheck_out (ok : Bool) : (recordPageCheck ok s).out = s.out := rfl
@[simp] theorem recordPageCheck_rsp (ok : Bool) : (recordPageCheck ok s).rsp = s.rsp := rfl
@[simp] theorem recordPageCheck_img (ok : Bool) : (recordPageCheck ok s).img = s.img := rfl
@[simp] theorem recordPageCheck_moves (ok : Bool) : (recordPageCheck ok s).moves = s.moves := rfl

/-! ### resetBlock -/

@[simp] theorem resetBlock_crc : (resetBlock s).crc = 0 := rfl
@[simp] theorem resetBlock_la : (resetBlock s).la = 0 := rfl
@[simp] theorem resetBlock_ca : (resetBlock s).ca = 0 := rfl
@[simp] theorem resetBlock_off : (resetBlock s).off = 0 := rfl
@[simp] theorem resetBlock_rem : (resetBlock s).rem = 0 := rfl
@[simp] theorem resetBlock_awrap : (resetBlock s).awrap = false := rfl
@[simp] theorem resetBlock_pberr : (resetBlock s).pberr = false := rfl
@[simp] theorem resetBlock_cmderr : (resetBlock s).cmderr = false := rfl
@[simp] theorem resetBlock_outn : (resetBlock s).outn = 0 := rfl
@[simp] theorem resetBlock_out : (resetBlock s).out = [] := rfl
@[simp] theorem resetBlock_rsp : (resetBlock s).rsp = [] := rfl
@[simp] theorem resetBlock_img : (resetBlock s).img = s.img := rfl
@[simp] theorem resetBlock_moves : (resetBlock s).moves = s.moves := rfl

end Sys2Proof.Machine
end

