-- ==== Sys2Proof/Laws/Ops.lean ====
section
/-! SUPPORT. One lemma for what each shared operation of Machine/Ops.lean and Machine/HostPort.lean can do. -/

namespace Sys2Proof.Machine

/-! ### The configuration -/

/-- Every length below 2^32 is admitted, whatever LENW is (00_scope.md R6). -/
theorem admitsLength_of_lt {n : Nat} (h : n < 2 ^ 32) : Config.admitsLength n = true := by
  unfold Config.admitsLength
  rw [decide_eq_true h, Bool.true_or]

theorem imageFits_of_lt {img : List Byte} (h : img.length < 2 ^ 32) : imageFits img = true :=
  admitsLength_of_lt h

/-! ### The image -/

/-- A byte is read exactly at the offsets of the image (20_memory.md R50, R52). -/
theorem memRead_isSome_iff (img : List Byte) (off : Nat) : (memRead img off).isSome ↔ off < img.length := by
  simp [memRead]

/-- A run of reads gives its bytes exactly when every one of them is in the image, and then they are the bytes that
single reads give, in ascending order (R51). -/
theorem memReadRun_eq_some_iff (img : List Byte) (off n : Nat) (data : List Byte) :
    memReadRun img off n = some data ↔
      off + n ≤ img.length ∧ data.length = n ∧ ∀ k, k < n → memRead img (off + k) = data[k]? := by
  unfold memReadRun memRead
  constructor
  · intro h
    split at h
    · rename_i hle
      obtain rfl := (Option.some.inj h).symm
      refine ⟨hle, by simp; omega, fun k hk => ?_⟩
      rw [List.getElem?_take_of_lt hk, List.getElem?_drop]
    · cases h
  · rintro ⟨hle, hlen, hget⟩
    rw [if_pos hle]
    congr 1
    apply List.ext_getElem?
    intro k
    by_cases hk : k < n
    · rw [List.getElem?_take_of_lt hk, List.getElem?_drop]
      exact hget k hk
    · rw [List.getElem?_eq_none (by simp; omega), List.getElem?_eq_none (by omega)]

theorem memReadRun_of_le {img : List Byte} {off n : Nat} (h : off + n ≤ img.length) :
    memReadRun img off n = some ((img.drop off).take n) := if_pos h

theorem memReadRun_of_gt {img : List Byte} {off n : Nat} (h : img.length < off + n) :
    memReadRun img off n = none := if_neg (by omega)

/-! ### The streams -/

/-- `outBytes` is `Out` of each byte in turn (R54). -/
theorem outBytes_eq_foldl (bs : List Byte) (s : State) : outBytes bs s = bs.foldl (fun t b => outByte b t) s := by
  induction bs generalizing s with
  | nil => simp [outBytes]
  | cons b rest ih =>
    rw [List.foldl_cons, ← ih]
    simp [outBytes, outByte]; omega

@[simp] theorem outBytes_nil (s : State) : outBytes [] s = s := by simp [outBytes]

theorem outBytes_append (xs ys : List Byte) (s : State) :
    outBytes (xs ++ ys) s = outBytes ys (outBytes xs s) := by
  simp [outBytes, Nat.add_assoc]

/-- In the canonical form the host reads exactly the bytes of OUT. -/
theorem readOut_eq (s : State) (h : Memory.wf s) (pos : Nat) : readOut s pos = s.out[pos]? := by
  unfold readOut
  split
  · rfl
  · rw [List.getElem?_eq_none (by rw [← h]; omega)]

/-- Reading what was written: the bytes just appended stand from the old OUTN on. -/
theorem readOut_outBytes_of_ge (bs : List Byte) (s : State) (h : Memory.wf s) (k : Nat) :
    readOut (outBytes bs s) (s.outn + k) = bs[k]? := by
  rw [readOut_eq _ (by simp [Memory.wf, h])]
  simp only [outBytes_out]
  rw [h, List.getElem?_append_right (by omega)]
  simp

/-- Writing leaves every position below the old OUTN alone. -/
theorem readOut_outBytes_of_lt (bs : List Byte) (s : State) (h : Memory.wf s) (pos : Nat) (hp : pos < s.outn) :
    readOut (outBytes bs s) pos = readOut s pos := by
  rw [readOut_eq _ (by simp [Memory.wf, h]), readOut_eq _ h]
  simp only [outBytes_out]
  rw [List.getElem?_append_left (by rw [← h]; exact hp)]

/-! ### Every operation over memory keeps its canonical form -/

theorem reset_memory_wf : Memory.wf State.reset := rfl

theorem outByte_memory_wf (b : Byte) (s : State) (h : Memory.wf s) : Memory.wf (outByte b s) := by
  simp [Memory.wf, h]

theorem outBytes_memory_wf (bs : List Byte) (s : State) (h : Memory.wf s) : Memory.wf (outBytes bs s) := by
  simp [Memory.wf, h]

theorem resetBlock_memory_wf (s : State) : Memory.wf (resetBlock s) := rfl

theorem respond_memory_wf (v : Half) (s : State) (h : Memory.wf s) : Memory.wf (respond v s) := h

theorem bindImage_memory_wf {img : List Byte} {s t : State} (h : Memory.wf s) (hb : bindImage img s = .next t) :
    Memory.wf t := by
  unfold bindImage at hb
  split at hb
  · cases hb
  · split at hb
    · cases hb
    · cases hb; exact h

/-! ### The host's moves -/

/-- Everything a bind that is accepted does: it replaces the image, which fits, and which is the one bound if REM > 0. -/
theorem bindImage_next {img : List Byte} {s t : State} (h : bindImage img s = .next t) :
    t = { s with img := img } ∧ imageFits img = true ∧ (s.rem ≠ 0 → img = s.img) := by
  unfold bindImage at h
  split at h
  · cases h
  · rename_i hfit
    split at h
    · cases h
    · rename_i hrun
      cases h
      refine ⟨rfl, by simpa using hfit, fun hr => ?_⟩
      by_contra hne
      exact hrun ⟨hr, hne⟩

@[simp] theorem takeMove_nil (s : State) (h : s.moves = []) : takeMove s = none := by
  unfold takeMove; rw [h]

@[simp] theorem takeMove_cons (s : State) (m : HostMove) (rest : List HostMove) (h : s.moves = m :: rest) :
    takeMove s = some (m, { s with moves := rest }) := by
  unfold takeMove; rw [h]

@[simp] theorem takeMove_presentWord (w : CmdWord) (s : State) :
    takeMove (presentWord w s) = some (.command w, s) := rfl

theorem issueWord_legal {w : CmdWord} {i : Instr} (h : decode w = .legal i) (s : State) :
    issueWord w s = exec i s := by
  unfold issueWord; rw [h]

theorem issueWord_illegal {w : CmdWord} {why : IllegalWord} (h : decode w = .illegal why) (s : State) :
    issueWord w s = .next (raiseCmdError s) := by
  unfold issueWord; rw [h]

end Sys2Proof.Machine
end

