-- ==== Sys2Proof/Laws/PerInstr.lean ====
section
/-! SUPPORT. A statement per operation, about its syntax: the row of the opcode map that its word passes. -/

namespace Sys2Proof.Laws.EncodingRow

/-- The word of the operation passes the test of exactly one row of 30_encoding.md R83, the one with its mnemonic. -/
def Statement (i : Instr) : Prop :=
  (opcodeMap.filter (fun r => r.accepts (encode i))).map OpcodeRow.mnemonic = [i.mnemonic]

/-- A mask that is 0 on the operand's bits sees nothing of the operand. -/
theorem or_zeroExtend_and {n : Nat} (p m : CmdWord) (v : BitVec n) (hm : ∀ i, i < n → m.getLsbD i = false) :
    (p ||| v.zeroExtend 32) &&& m = p &&& m := by
  have hz : v.zeroExtend 32 &&& m = 0#32 := by
    apply BitVec.eq_of_getLsbD_eq
    intro i _
    by_cases hi : i < n
    · simp [hm i hi]
    · simp [BitVec.getLsbD_of_ge v i (by omega)]
  rw [BitVec.and_or_distrib_right, hz, BitVec.or_zero]

/-- A row whose opcode is not the word's does not accept it. -/
theorem accepts_eq_false {r : OpcodeRow} {w : CmdWord} (hm : r.mask &&& 0xFF000000#32 = 0xFF000000#32)
    (hw : w &&& 0xFF000000#32 ≠ r.pattern &&& 0xFF000000#32) : r.accepts w = false := by
  rw [OpcodeRow.accepts, beq_eq_false_iff_ne]
  intro h
  apply hw
  rw [← h, BitVec.and_assoc, hm]

/-- The opcode bits of a word with an operand below them. -/
theorem opcode_bits {n : Nat} (p : CmdWord) (v : BitVec n) (hn : n ≤ 24) :
    (p ||| v.zeroExtend 32) &&& 0xFF000000#32 = p &&& 0xFF000000#32 := by
  apply or_zeroExtend_and
  intro i hi
  have : i < 24 := by omega
  interval_cases i <;> rfl

theorem crcSeed (imm16 : Half) : Statement (.crcSeed imm16) := by
  have hop := opcode_bits 0x01000000#32 imm16 (by omega)
  have hrow : (0x01000000#32 ||| imm16.zeroExtend 32) &&& 0xFFFF0000#32 = 0x01000000#32 :=
    or_zeroExtend_and _ _ _ (by intro i hi; interval_cases i <;> rfl)
  unfold Statement opcodeMap
  rw [List.filter_cons_of_pos (by rw [encode, OpcodeRow.accepts, hrow]; rfl)]
  repeat rw [List.filter_cons_of_neg
    (by rw [accepts_eq_false rfl (by rw [encode, hop]; decide)]; exact Bool.false_ne_true)]
  rfl

theorem crcByte (imm8 : Byte) : Statement (.crcByte imm8) := by
  have hop := opcode_bits 0x02000000#32 imm8 (by omega)
  have hrow : (0x02000000#32 ||| imm8.zeroExtend 32) &&& 0xFFFFFF00#32 = 0x02000000#32 :=
    or_zeroExtend_and _ _ _ (by intro i hi; interval_cases i <;> rfl)
  unfold Statement opcodeMap
  rw [List.filter_cons_of_neg
    (by rw [accepts_eq_false rfl (by rw [encode, hop]; decide)]; exact Bool.false_ne_true)]
  rw [List.filter_cons_of_pos (by rw [encode, OpcodeRow.accepts, hrow]; rfl)]
  repeat rw [List.filter_cons_of_neg
    (by rw [accepts_eq_false rfl (by rw [encode, hop]; decide)]; exact Bool.false_ne_true)]
  rfl

theorem crcRd : Statement .crcRd := by unfold Statement; decide

theorem segStart (imm24 : Addr) : Statement (.segStart imm24) := by
  have hop := opcode_bits 0x10000000#32 imm24 le_rfl
  have hrow : (0x10000000#32 ||| imm24.zeroExtend 32) &&& 0xFF000000#32 = 0x10000000#32 := hop.trans rfl
  unfold Statement opcodeMap
  iterate 3 rw [List.filter_cons_of_neg
    (by rw [accepts_eq_false rfl (by rw [encode, hop]; decide)]; exact Bool.false_ne_true)]
  rw [List.filter_cons_of_pos (by rw [encode, OpcodeRow.accepts, hrow]; rfl)]
  repeat rw [List.filter_cons_of_neg
    (by rw [accepts_eq_false rfl (by rw [encode, hop]; decide)]; exact Bool.false_ne_true)]
  rfl

theorem segStep : Statement .segStep := by unfold Statement; decide

theorem segRun : Statement .segRun := by unfold Statement; decide

theorem stRd : Statement .stRd := by unfold Statement; decide

end Sys2Proof.Laws.EncodingRow
end

