-- ==== Sys2Proof/Laws/Segmenter.lean ====
section
/-! SUPPORT. What a segment step and the loop of SEG.RUN can do, said once. -/

namespace Sys2Proof.Machine

/-- There is a next segment exactly when its bytes lie in the image, and then it is the image's slice. -/
theorem nextSegment_eq_some_iff (s : State) (g : Segment) :
    nextSegment s = some g ↔
      s.off + segLen s.rem s.ca ≤ s.img.length ∧
        g = segmentOf s ((s.img.drop s.off).take (segLen s.rem s.ca)) := by
  unfold nextSegment
  by_cases h : s.off + segLen s.rem s.ca ≤ s.img.length
  · simp [memReadRun_of_le h, h, eq_comm]
  · simp [memReadRun_of_gt (not_le.mp h), h]

/-- Everything `segStep` can do: emit the segment of the registers, or stop because its bytes are not all there. -/
theorem segStep_cases (s : State) :
    (s.off + segLen s.rem s.ca ≤ s.img.length ∧
      segStep s = .next (emitSegment (segmentOf s ((s.img.drop s.off).take (segLen s.rem s.ca))) s)) ∨
    (s.img.length < s.off + segLen s.rem s.ca ∧ segStep s = .fault .imageReadOutOfRange) := by
  by_cases h : s.off + segLen s.rem s.ca ≤ s.img.length
  · refine .inl ⟨h, ?_⟩
    unfold segStep
    rw [(nextSegment_eq_some_iff s _).mpr ⟨h, rfl⟩]
  · refine .inr ⟨not_le.mp h, ?_⟩
    unfold segStep nextSegment
    rw [memReadRun_of_gt (not_le.mp h)]

/-- If `segStep` answers a next state, that state is the emission of the registers' segment, whose bytes are there. -/
theorem segStep_next {s t : State} (h : segStep s = .next t) :
    s.off + segLen s.rem s.ca ≤ s.img.length ∧
      t = emitSegment (segmentOf s ((s.img.drop s.off).take (segLen s.rem s.ca))) s := by
  rcases segStep_cases s with ⟨hle, he⟩ | ⟨-, he⟩
  · rw [he] at h; cases h; exact ⟨hle, rfl⟩
  · rw [he] at h; cases h

/-! ### The fields after an emission -/

section
variable (g : Segment) (s : State)

@[simp] theorem emitSegment_crc : (emitSegment g s).crc = g.crc := rfl
@[simp] theorem emitSegment_la : (emitSegment g s).la = s.la := rfl
@[simp] theorem emitSegment_ca : (emitSegment g s).ca = s.ca + trunc24 g.length := rfl
@[simp] theorem emitSegment_off : (emitSegment g s).off = s.off + g.length := rfl
@[simp] theorem emitSegment_rem : (emitSegment g s).rem = s.rem - g.length := rfl
@[simp] theorem emitSegment_awrap : (emitSegment g s).awrap = (s.awrap || addrWraps s.la s.off) := rfl
@[simp] theorem emitSegment_pberr : (emitSegment g s).pberr = (s.pberr || !pageOK g.address g.length) := rfl
@[simp] theorem emitSegment_cmderr : (emitSegment g s).cmderr = s.cmderr := rfl
@[simp] theorem emitSegment_outn : (emitSegment g s).outn = s.outn + (serialise g).length := rfl
@[simp] theorem emitSegment_out : (emitSegment g s).out = s.out ++ serialise g := rfl
@[simp] theorem emitSegment_rsp : (emitSegment g s).rsp = s.rsp := rfl
@[simp] theorem emitSegment_img : (emitSegment g s).img = s.img := rfl
@[simp] theorem emitSegment_moves : (emitSegment g s).moves = s.moves := rfl

@[simp] theorem segmentOf_address (data : List Byte) : (segmentOf s data).address = segAddress s.la s.off := rfl
@[simp] theorem segmentOf_length (data : List Byte) : (segmentOf s data).length = segLen s.rem s.ca := rfl
@[simp] theorem segmentOf_data (data : List Byte) : (segmentOf s data).data = data := rfl
@[simp] theorem segmentOf_crc (data : List Byte) : (segmentOf s data).crc = crc16 data := rfl

end

/-! ### The loop -/

/-- Fuel beyond REM changes nothing (41_segmenter.md R155). -/
theorem segLoop_fuel_irrelevant :
    ∀ (fuel more : Nat) (s : State), s.rem ≤ fuel → segLoop (fuel + more) s = segLoop fuel s
  | 0, more, s, h => by
    have hr : s.rem = 0 := by omega
    cases more <;> simp [segLoop, hr]
  | fuel + 1, more, s, h => by
    rw [show fuel + 1 + more = (fuel + more) + 1 by omega]
    unfold segLoop
    by_cases hr : s.rem = 0
    · rw [if_pos hr, if_pos hr]
    · rw [if_neg hr, if_neg hr]
      rcases segStep_cases s with ⟨-, he⟩ | ⟨-, he⟩
      · rw [he]
        have := segLen_pos s.ca hr
        exact segLoop_fuel_irrelevant fuel more _ (by simp; omega)
      · rw [he]

/-- The loop with enough fuel is SEG.RUN. -/
theorem segLoop_eq_execSegRun {fuel : Nat} {s : State} (h : s.rem ≤ fuel) : segLoop fuel s = execSegRun s := by
  obtain ⟨more, rfl⟩ := Nat.exists_eq_add_of_le h
  exact segLoop_fuel_irrelevant s.rem more s le_rfl

/-- Rule induction for the loop: what holds where REM is 0, and is carried back over one emission, holds of the state
from which SEG.RUN answers a next state, with that state. -/
theorem execSegRun_induct {P : State → State → Prop}
    (done : ∀ s, s.rem = 0 → P s s)
    (pass : ∀ s u t, s.rem ≠ 0 → segStep s = .next u → P u t → P s t) :
    ∀ s t, execSegRun s = .next t → P s t := by
  suffices H : ∀ (fuel : Nat) (s t : State), s.rem ≤ fuel → segLoop fuel s = .next t → P s t from
    fun s t h => H s.rem s t le_rfl h
  intro fuel
  induction fuel with
  | zero =>
    intro s t hf h
    cases h
    exact done s (by omega)
  | succ fuel ih =>
    intro s t hf h
    unfold segLoop at h
    by_cases hr : s.rem = 0
    · rw [if_pos hr] at h; cases h; exact done s hr
    · rw [if_neg hr] at h
      rcases segStep_cases s with ⟨-, he⟩ | ⟨-, he⟩
      · rw [he] at h
        have := segLen_pos s.ca hr
        exact pass s _ t hr he (ih _ t (by simp; omega) h)
      · rw [he] at h; cases h

end Sys2Proof.Machine
end

