-- ==== Sys2Proof/Laws/Step.lean ====
section
/-! SUPPORT. What one step can do, said once. -/

namespace Sys2Proof.Machine

/-- Everything a step that answers a next state can be: no move, a command word, a bound image, or a reset. -/
theorem step_next {s t : State} (h : step s = .next t) :
    (s.moves = [] ∧ t = s) ∨
    (∃ w rest i, s.moves = .command w :: rest ∧ decode w = .legal i ∧ exec i { s with moves := rest } = .next t) ∨
    (∃ w rest why, s.moves = .command w :: rest ∧ decode w = .illegal why ∧
      t = { s with moves := rest, cmderr := true }) ∨
    (∃ img rest, s.moves = .bind img :: rest ∧ t = { s with moves := rest, img := img } ∧
      imageFits img = true ∧ (s.rem ≠ 0 → img = s.img)) ∨
    (∃ rest, s.moves = .reset :: rest ∧ t = { State.reset with img := s.img, moves := rest }) := by
  unfold step stepHost at h
  rcases hm : s.moves with _ | ⟨m, rest⟩
  · rw [takeMove_nil s hm] at h
    cases h
    exact .inl ⟨rfl, rfl⟩
  · rw [takeMove_cons s m rest hm] at h
    cases m with
    | command w =>
      rcases hd : decode w with i | why
      · exact .inr (.inl ⟨w, rest, i, rfl, hd, by rw [← issueWord_legal hd]; exact h⟩)
      · refine .inr (.inr (.inl ⟨w, rest, why, rfl, hd, ?_⟩))
        simp only [serveMove, issueWord_illegal hd] at h
        cases h; rfl
    | bind img =>
      obtain ⟨rfl, hfit, hrun⟩ := bindImage_next h
      exact .inr (.inr (.inr (.inl ⟨img, rest, rfl, rfl, hfit, hrun⟩)))
    | reset =>
      cases h
      exact .inr (.inr (.inr (.inr ⟨rest, rfl, rfl⟩)))

/-- The host's question: a placed word is the one the next step issues, and the rest of the state is as it was. -/
theorem step_withFetchWord (s : State) (nbits w : Nat) :
    step (s.withFetchWord nbits w) = issueWord (tableWord nbits w) s := rfl

end Sys2Proof.Machine
end

