-- ==== Sys2Proof/Tests/Slice0.lean ====
section
/-! SUPPORT. Tests of the model against words and vectors of spec/, and a witness for every statement's hypotheses. Each
test names the vector of 95_test_vectors.md, or the rule, its expected result comes from. -/

namespace Sys2Proof.Tests

open Sys2Proof.Machine Sys2Proof.Safety

/-- The next state, where there is one. -/
def after : Host.Outcome State Fault Refusal → Option State
  | .next t => some t
  | .fault _ => none
  | .refused _ => none

/-- The reset state with an image bound. -/
def withImage (img : List Byte) : State := { State.reset with img := img }

/-- A run in progress: 16 bytes of a 20-byte image emitted from 0x00FFF0 (95_test_vectors.md P3). -/
def midRun : State :=
  { State.reset with
    crc := 0x170A, la := 0x00FFF0, ca := 0x010000, off := 16, rem := 4,
    img := [0x00, 0x01, 0x02, 0x03, 0x04, 0x05, 0x06, 0x07, 0x08, 0x09, 0x0A, 0x0B, 0x0C, 0x0D, 0x0E, 0x0F,
            0x10, 0x11, 0x12, 0x13] }

/-- Two bytes at the last address of a page, nothing emitted yet (95_test_vectors.md V-S2). -/
def straddling : State :=
  { State.reset with la := 0x12FFFF, ca := 0x12FFFF, rem := 2, img := [0x5A, 0xA5] }

/-! ### Well-formedness: an ill-formed term for each check (30_encoding.md R95; 70_reset_and_hazards.md R212) -/

theorem test_wf_crcSeed :
    SourceOp.wellFormed (.crcSeed 0xFFFF) = true ∧ SourceOp.wellFormed (.crcSeed 0x10000) = false := by
  decide

theorem test_wf_crcByte :
    SourceOp.wellFormed (.crcByte 0xFF) = true ∧ SourceOp.wellFormed (.crcByte 0x100) = false := by
  decide

theorem test_wf_segStart :
    SourceOp.wellFormed (.segStart 0xFFFFFF) = true ∧ SourceOp.wellFormed (.segStart 0x1000000) = false := by
  decide

theorem test_wf_image_too_long (k n : Nat) (hw : Config.lenwChoice = some k) (hn : 2 ^ (32 + k) ≤ n) :
    Config.admitsLength n = false := by
  have : 2 ^ 32 ≤ 2 ^ (32 + k) := Nat.pow_le_pow_right (by omega) (by omega)
  simp only [Config.admitsLength, hw, Bool.or_eq_false_iff, decide_eq_false_iff_not]
  omega

/-! ### Decoding: words written out bit by bit from R83's patterns, and section 2.1 -/

theorem test_decode_crcSeed : decode 0b00000001000000000001001000110100#32 = .legal (.crcSeed 0x1234) := by decide

theorem test_decode_crcByte : decode 0b00000010000000000000000011111111#32 = .legal (.crcByte 0xFF) := by decide

theorem test_decode_crcRd : decode 0b00000011000000000000000000000000#32 = .legal .crcRd := by decide

theorem test_decode_segStart : decode 0b00010000000011111111111111110000#32 = .legal (.segStart 0x0FFFF0) := by decide

theorem test_decode_segStep : decode 0b00010001000000000000000000000000#32 = .legal .segStep := by decide

theorem test_decode_segRun : decode 0b00010010000000000000000000000000#32 = .legal .segRun := by decide

theorem test_decode_stRd : decode 0b00100000000000000000000000000000#32 = .legal .stRd := by decide

theorem test_decode_reserved :
    [0x01010000#32, 0x01800000#32, 0x02000100#32, 0x03000001#32, 0x11000001#32, 0x12800000#32, 0x20000001#32].map decode
      = List.replicate 7 (.illegal .reservedBitSet) := by decide

theorem test_decode_undefined :
    [0x00000000#32, 0xFFFFFFFF#32, 0x04000000#32, 0x13000000#32, 0x21000000#32, 0x0F000000#32].map decode
      = List.replicate 6 (.illegal .undefinedOpcode) := by decide

/-- R58: bits 7:0 first. -/
theorem test_decode_bytes :
    decodeBytes [0x34, 0x12, 0x00, 0x01, 0xAA] = some (.legal (.crcSeed 0x1234), [0xAA]) := by decide

theorem test_decode_bytes_short : decodeBytes [0x34, 0x12, 0x00] = none := by decide

theorem test_decodeTableWord : decodeTableWord 32 285212672 = some .segStep ∧ decodeTableWord 32 0 = none := by decide

/-! ### The CRC engine (V-C1, V-C3, V-C4) -/

/-- Rows of V-C1, and the start of row 6x of V-C2. -/
theorem test_crcUpd :
    crcUpd 0x0000 0xFF = 0x4040 ∧ crcUpd 0xFFFF 0x00 = 0x40BF ∧ crcUpd 0x1234 0x56 = 0xE993 ∧
    crcUpd 0xC0C1 0x02 = 0x5180 ∧ crcUpd 0xD4C1 0x32 = 0x4594 ∧ crcUpd 0x8000 0x00 = 0x0080 ∧
    [0x60, 0x61, 0x62, 0x63].map (crcUpd 0x0000) = [0x2800, 0xE8C1, 0xE981, 0x2940] := by decide

/-- V-C3 and V-C4: sequences, the empty one, and the residue. -/
theorem test_crc16 :
    crc16 [] = 0x0000 ∧ crc16 [0x00] = 0x0000 ∧ crc16 [0x01, 0x02, 0x03] = 0xA110 ∧ crc16 [0xAA, 0xBB] = 0xD33E ∧
    crc16 [0x01, 0x02, 0x03, 0x10, 0xA1] = 0x0000 := by decide

/-- V-C6: the second seed wins, and a seed writes nothing else. -/
theorem test_crcSeed :
    after (issue [.crcSeed 0xBEEF, .crcSeed 0xFFFF] State.reset) = some { State.reset with crc := 0xFFFF } := by decide

/-- R116's example. -/
theorem test_crcByte : after (exec (.crcByte 0x01) State.reset) = some { State.reset with crc := 0xC0C1 } := by decide

/-- V-C6: the read does not change CRC, and an accumulation continues after it. -/
theorem test_crcRd :
    (after (issue [.crcSeed 0xFFFF, .crcRd, .crcRd, .crcByte 0xFF, .crcRd] State.reset)).map (fun t => (t.rsp, t.crc))
      = some ([0xFFFF, 0xFFFF, 0x00FF], 0x00FF) := by decide

/-- R117: bytewise `3D BB`. -/
theorem test_response_bytes : halfBytes 0xBB3D = [0x3D, 0xBB] := by decide

/-! ### The segmenter -/

/-- Section 2.3, row 4: a restart keeps CRC and the streams. -/
theorem test_segStart_restart :
    after (exec (.segStart 0x000100) midRun)
      = some { midRun with la := 0x000100, ca := 0x000100, off := 0, rem := 20 } := by decide

/-- P3, step 4: the last segment of the run. -/
theorem test_segStep_last :
    (after (exec .segStep midRun)).map (fun t => (t.crc, t.ca, [t.off, t.rem, t.outn], t.out))
      = some (0xA819, 0x010004, [20, 0, 11],
          [0x00, 0x00, 0x01, 0x03, 0x00, 0x10, 0x11, 0x12, 0x13, 0x19, 0xA8]) := by decide

/-- V-S2, first segment: cut at the page boundary. -/
theorem test_segStep_page_end :
    (after (exec .segStep straddling)).map (fun t => (t.crc, t.ca, t.rem, t.out))
      = some (0x3B80, 0x130000, 1, [0xFF, 0xFF, 0x12, 0x00, 0x00, 0x5A, 0x80, 0x3B]) := by decide

/-- S9 and P2. -/
theorem test_segRun_small :
    (after (issue [.segStart 0x000000, .segRun] (withImage [0x01, 0x02, 0x03]))).map
        (fun t => (t.crc, t.ca, [t.off, t.rem, t.outn], t.out))
      = some (0xA110, 0x000003, [3, 0, 10], [0x00, 0x00, 0x00, 0x02, 0x00, 0x01, 0x02, 0x03, 0x10, 0xA1]) := by decide

/-- P4: the address passes 2^24, and ST reads 0x0003. -/
theorem test_segRun_wrap :
    (after (issue [.segStart 0xFFFFFE, .segRun, .stRd] (withImage [0xAA, 0xBB, 0xCC, 0xDD]))).map
        (fun t => (t.crc, t.ca, t.out, t.rsp))
      = some (0x5995, 0x000002,
          [0xFE, 0xFF, 0xFF, 0x01, 0x00, 0xAA, 0xBB, 0x3E, 0xD3,
           0x00, 0x00, 0x00, 0x01, 0x00, 0xCC, 0xDD, 0x95, 0x59], [0x0003]) := by decide

/-- Section 2.5, the rows where the predicate changes. -/
theorem test_pageOK :
    pageOK 0x0FFFF0 16 = true ∧ pageOK 0x0FFFF0 17 = false ∧ pageOK 0x000000 65536 = true ∧ pageOK 0x000001 65536 = false ∧
    pageOK 0xFFFFFF 1 = true ∧ pageOK 0x123456 52138 = true ∧ pageOK 0x123456 52139 = false := by decide

/-- Section 2.4, rows by address and length: the number of segments. -/
theorem test_segCount :
    segCount 0x000000 0 = 0 ∧ segCount 0x000000 65536 = 1 ∧ segCount 0x000000 65537 = 2 ∧ segCount 0x00FFF0 16 = 1 ∧
    segCount 0x00FFF0 17 = 2 ∧ segCount 0x0FFFF0 70000 = 3 ∧ segCount 0x123456 200000 = 4 ∧
    segLength 0x123456 200000 3 = 16790 := by decide

/-- Section 2.7: the status word. -/
theorem test_status :
    status State.reset = 0x0001 ∧ status midRun = 0x0000 ∧ status { midRun with awrap := true } = 0x0002 ∧
    status { midRun with cmderr := true } = 0x0008 ∧ status { State.reset with awrap := true, cmderr := true } = 0x000B := by
  decide

/-- R144: the read appends and clears nothing. -/
theorem test_stRd :
    after (exec .stRd { midRun with awrap := true }) = some { midRun with awrap := true, rsp := [0x0002] } := by decide

/-! ### Steps -/

/-- V-D1: an illegal word changes only CMDERR. -/
theorem test_step_illegal :
    after (step (State.reset.withFetchWord 32 0x02000100)) = some { State.reset with cmderr := true } := by decide

/-- A placed word is the next one executed. -/
theorem test_step_word :
    after (step (State.reset.withFetchWord 32 0x01001234)) = some { State.reset with crc := 0x1234 } := by decide

/-- R210: the image is not touched. -/
theorem test_step_reset :
    after (step { midRun with cmderr := true, moves := [.reset] }) = some (withImage midRun.img) := by decide

/-- R214: the host has no move that changes the image during a run. -/
theorem test_step_bind :
    after (step { State.reset with moves := [.bind [0x5A]] }) = some (withImage [0x5A]) ∧
    after (step { midRun with moves := [.bind [0x5A]] }) = none := by decide

/-! ### The assembler (R95, R96) -/

theorem test_assemble_words :
    (assemble "CRC.SEED 0x1234 ; a seed\n\nSEG.START 4660\nENCODE 0x0FFFF0").toOption
      = some [0x01001234, 0x10001234, 0x100FFFF0, 0x12000000] := by decide +kernel

theorem test_assemble_crc16 :
    (assemble "CRC16 0x31 0x32").toOption = some [0x01000000, 0x02000031, 0x02000032, 0x03000000] := by decide +kernel

theorem test_assemble_out_of_range :
    (assemble "CRC.BYTE 0x100").toOption = none ∧ (assemble "CRC.BYTE").toOption = none ∧
    (assemble "crc.rd").toOption = none ∧ (assemble "CRC.BYTE 12z").toOption = none := by decide +kernel

/-! ### Witnesses: a state and operands that meet each statement's hypotheses together -/

theorem witness_decode_legal : decode 0x01001234#32 = .legal (.crcSeed 0x1234) := by decide

theorem witness_illegal_word : (decode 0x01010000#32).instr? = none := by decide

theorem witness_step_runs_decoded :
    ∃ (s : State) (w : CmdWord) (rest : List HostMove) (i : Instr),
      s.moves = .command w :: rest ∧ decode w = .legal i ∧ s.cmderr = true :=
  ⟨{ State.reset with cmderr := true, moves := [.command 0x11000000#32] }, _, _, .segStep, rfl, by decide, rfl⟩

theorem witness_idle : State.reset.moves = [] := rfl

theorem witness_cmd_error :
    ∃ (s : State) (w : CmdWord) (rest : List HostMove) (why : IllegalWord),
      s.moves = .command w :: rest ∧ decode w = .illegal why :=
  ⟨{ State.reset with moves := [.command 0xFFFFFFFF#32, .reset] }, _, _, .undefinedOpcode, rfl, by decide⟩

theorem witness_exec_next : ∃ (i : Instr) (s t : State), exec i s = .next t ∧ (∀ a, i ≠ .segStart a) :=
  ⟨.segStep, midRun, _, rfl, by intro a h; cases h⟩

theorem witness_reset_move : ∃ (s : State) (rest : List HostMove), s.moves = .reset :: rest :=
  ⟨{ midRun with moves := [.reset, .command 0x20000000#32] }, _, rfl⟩

theorem witness_no_reset_move :
    ∃ s t : State, (∀ rest, s.moves ≠ .reset :: rest) ∧ step s = .next t ∧
      s.awrap = true ∧ s.pberr = true ∧ s.cmderr = true :=
  ⟨{ midRun with awrap := true, pberr := true, cmderr := true, moves := [.command 0x11000000#32] }, _,
    (by intro rest h; cases h), rfl, rfl, rfl, rfl⟩

theorem witness_bind_between_runs :
    ∃ (s : State) (img : List Byte) (rest : List HostMove),
      s.moves = .bind img :: rest ∧ img.length < 2 ^ 32 ∧ s.rem = 0 :=
  ⟨{ State.reset with moves := [.bind [0x5A]] }, _, _, rfl, by decide, rfl⟩

theorem witness_bind_during_run :
    ∃ (s : State) (img : List Byte) (rest : List HostMove),
      s.moves = .bind img :: rest ∧ img.length < 2 ^ 32 ∧ s.rem ≠ 0 ∧ img ≠ s.img :=
  ⟨{ midRun with moves := [.bind [0x5A]] }, _, _, rfl, by decide, by decide, by decide⟩

/-- The invariant holds of a run in progress, the image's length admitted whatever LENW is. -/
theorem witness_invariant : ∃ s t : State, Inv s ∧ step s = .next t ∧ s.rem ≠ 0 :=
  ⟨{ straddling with moves := [.command 0x12000000#32] }, _,
    ⟨fun _ => rfl, by decide, rfl, rfl, imageFits_of_lt (by decide)⟩, rfl, by decide⟩

theorem witness_crcSeed_words :
    (∃ w : CmdWord, w.toNat / 0x1000000 = 0x01 ∧ w.toNat / 0x10000 % 0x100 ≠ 0) ∧
    (∃ w : CmdWord, w.toNat / 0x1000000 = 0x01 ∧ w.toNat / 0x10000 % 0x100 = 0) :=
  ⟨⟨0x01010000#32, by decide⟩, ⟨0x0100FFFF#32, by decide⟩⟩

theorem witness_crcByte_words :
    (∃ w : CmdWord, w.toNat / 0x1000000 = 0x02 ∧ w.toNat / 0x100 % 0x10000 ≠ 0) ∧
    (∃ w : CmdWord, w.toNat / 0x1000000 = 0x02 ∧ w.toNat / 0x100 % 0x10000 = 0) ∧
    (∃ (b : Byte) (s : State), BitVec.ofNat 8 s.crc.toNat = b) :=
  ⟨⟨0x02000100#32, by decide⟩, ⟨0x020000FF#32, by decide⟩, ⟨0x0A, midRun, by decide⟩⟩

theorem witness_read_words :
    (∃ w : CmdWord, w.toNat / 0x1000000 = 0x03 ∧ w ≠ 0x03000000#32) ∧
    (∃ w : CmdWord, w.toNat / 0x1000000 = 0x20 ∧ w ≠ 0x20000000#32) :=
  ⟨⟨0x03000001#32, by decide⟩, ⟨0x20800000#32, by decide⟩⟩

theorem witness_bit_equations :
    ∃ (b : Byte) (s t : State) (d : Nat → Bool) (p : Bool), exec (.crcByte b) s = .next t ∧
      (∀ i, i < 8 → d i = (b.getLsbD i ^^ s.crc.getLsbD i)) ∧
      p = (d 0 ^^ d 1 ^^ d 2 ^^ d 3 ^^ d 4 ^^ d 5 ^^ d 6 ^^ d 7) :=
  ⟨0x5A, midRun, _, fun i => (0x5A#8).getLsbD i ^^ midRun.crc.getLsbD i, _, rfl, fun _ _ => rfl, rfl⟩

theorem witness_segStart :
    (∃ w : CmdWord, w.toNat / 0x1000000 = 0x10) ∧ (∃ s : State, s.img = []) :=
  ⟨⟨0x10FFFFFF#32, by decide⟩, ⟨State.reset, rfl⟩⟩

theorem witness_nothing_left : State.reset.rem = 0 := rfl

theorem witness_segStep_emits :
    ∃ (s : State) (n a : Nat) (data : List Byte), s.rem ≠ 0 ∧ n = min s.rem (0x10000 - s.ca.toNat % 0x10000) ∧
      a = (s.la.toNat + s.off) % 0x1000000 ∧ s.off + n ≤ s.img.length ∧ data = (s.img.drop s.off).take n :=
  ⟨midRun, 4, 0x010000, _, by decide, by decide, by decide, by decide, rfl⟩

/-- The frame's hypotheses, at the first and the last position the step stores to and the ones beside them. -/
theorem witness_segStep_stores :
    ∃ s t : State, Memory.wf s ∧ s.rem ≠ 0 ∧ 4 = min s.rem (0x10000 - s.ca.toNat % 0x10000) ∧
      exec .segStep s = .next t ∧
      readOut t s.outn = some 0x00 ∧ readOut t (s.outn + 10) = some 0xA8 ∧ readOut t (s.outn + 11) = none :=
  ⟨midRun, _, by decide, by decide, by decide, rfl, by decide, by decide, by decide⟩

theorem witness_reads_outside :
    ∃ s : State, s.rem ≠ 0 ∧ s.img.length < s.off + min s.rem (0x10000 - s.ca.toNat % 0x10000) :=
  ⟨{ State.reset with rem := 1 }, by decide, by decide⟩

theorem witness_repeated_steps :
    ∃ (s t : State) (k : Nat), s.rem ≠ 0 ∧ issue (List.replicate k .segStep) s = .next t ∧ k = 2 :=
  ⟨straddling, _, 2, by decide, rfl, rfl⟩

theorem witness_segRun_next : ∃ s t : State, s.rem ≠ 0 ∧ exec .segRun s = .next t ∧ exec .segStep s = .next t :=
  ⟨midRun, _, by decide, rfl, rfl⟩

theorem witness_segRun_completes : midRun.rem ≠ 0 → midRun.off + midRun.rem ≤ midRun.img.length := by decide

theorem witness_awrap_run :
    ∃ (s t : State) (A : Addr), s.awrap = false ∧ issue [.segStart A, .segRun] s = .next t ∧ t.awrap = true :=
  ⟨withImage [0x5A, 0xA5], _, 0xFFFFFF, rfl, rfl, by decide⟩

theorem witness_segment_range :
    ∃ (img : List Byte) (A : Addr) (k x : Nat), k < segCount A img.length ∧
      A.toNat + segOffset A k < x ∧ x < A.toNat + segOffset A k + segLength A img.length k :=
  ⟨[0x01, 0x02, 0x03], 0x00FFFF, 1, 0x010001, by decide, by decide, by decide⟩

/-- At both ends of the range of lengths. -/
theorem witness_pageOk_lengths : ∃ m n : Nat, 1 ≤ m ∧ m ≤ 65536 ∧ 1 ≤ n ∧ n ≤ 65536 ∧ m = 1 ∧ n = 65536 :=
  ⟨1, 65536, by decide⟩

theorem witness_address_consistent :
    ∃ s t u : State, s.ca = BitVec.ofNat 24 (s.la.toNat + s.off) ∧
      exec .segStep s = .next t ∧ exec .segRun s = .next u :=
  ⟨straddling, _, _, by decide, rfl, rfl⟩

theorem witness_split :
    ∃ s t : State, s.rem ≠ 0 ∧ exec .segStep s = .next t ∧ t.rem ≠ 0 :=
  ⟨straddling, _, by decide, rfl, by decide⟩

theorem witness_segStart_next : ∃ (a : Addr) (s t : State), exec (.segStart a) s = .next t :=
  ⟨0xFFFFFF, midRun, _, rfl⟩

theorem witness_segment_of_record :
    ∃ g : Segment, 1 ≤ g.length ∧ g.length ≤ 65536 ∧ g.data.length = g.length :=
  ⟨⟨0x12FFFF, 1, [0x5A], 0x3B80⟩, by decide, by decide, by decide⟩

theorem witness_host_crc : ∃ s t u : State, s.rem ≠ 0 ∧ exec .segStep s = .next t ∧ exec .segRun s = .next u :=
  ⟨straddling, _, _, by decide, rfl, rfl⟩

theorem witness_out_grows :
    ∃ (i : Instr) (s t : State), Memory.wf s ∧ exec i s = .next t ∧ i ≠ .segStep ∧ i ≠ .segRun ∧ ∀ a, i ≠ .segStart a :=
  ⟨.crcRd, midRun, _, by decide, rfl, by decide, by decide, by intro a h; cases h⟩

theorem witness_composed_runs :
    ∃ (A : List Byte) (s t u : State), issue (A.map .crcByte ++ [.crcRd]) s = .next t ∧ t.rsp.getLast? = some u.crc :=
  ⟨[0x31, 0x32], State.reset, _, { State.reset with crc := 0x4594 }, rfl, by decide⟩

/-- No step, and all of them. -/
theorem witness_steps_of_a_run :
    ∃ (s : State) (A : Addr), 0 ≤ segCount A s.img.length ∧ 2 ≤ segCount A s.img.length ∧ segCount A s.img.length = 2 :=
  ⟨withImage [0x5A, 0xA5], 0x12FFFF, by decide, by decide, by decide⟩

theorem witness_canonical_out : Memory.wf midRun ∧ (readOut midRun 0).isSome = false := by decide

end Sys2Proof.Tests
end

/-! PROOFS. The state after reset, and what the operations do to the two streams (10_state.md R29, R30, R34). -/

namespace Sys2Proof.Proofs

open Sys2Proof.Machine Sys2Proof.Safety

/-! ### The segmenter's operations -/

/-- SEG.STEP with nothing left to emit does nothing (41_segmenter.md R142). -/
theorem exec_segStep_of_rem_eq_zero {s : State} (h : s.rem = 0) : exec .segStep s = .next s := if_pos h

/-- SEG.RUN with nothing left to emit does nothing (41_segmenter.md R143). -/
theorem exec_segRun_of_rem_eq_zero {s : State} (h : s.rem = 0) : exec .segRun s = .next s :=
  (segLoop_eq_execSegRun (fuel := 0) h.le).symm

/-- Everything SEG.STEP can do when it completes: nothing, or one segment step. -/
theorem exec_segStep_next {s t : State} (h : exec .segStep s = .next t) :
    (s.rem = 0 ∧ t = s) ∨ (s.rem ≠ 0 ∧ segStep s = .next t) := by
  by_cases hr : s.rem = 0
  · rw [exec_segStep_of_rem_eq_zero hr] at h
    cases h
    exact .inl ⟨hr, rfl⟩
  · exact .inr ⟨hr, (if_neg hr).symm.trans h⟩

/-- One rule for both SEG.STEP and SEG.RUN: what holds between a state and itself, and is carried back over one
segment step, holds between the states before and after either operation. -/
theorem exec_segmenter_induct {P : State → State → Prop}
    (done : ∀ s, P s s)
    (pass : ∀ s u t, s.rem ≠ 0 → segStep s = .next u → P u t → P s t)
    {i : Instr} {s t : State} (hi : i = .segStep ∨ i = .segRun) (h : exec i s = .next t) : P s t := by
  rcases hi with rfl | rfl
  · rcases exec_segStep_next h with ⟨-, rfl⟩ | ⟨hr, hstep⟩
    · exact done t
    · exact pass s t t hr hstep (done t)
  · exact execSegRun_induct (fun s _ => done s) pass s t h

/-! ### OUT -/

/-- Only SEG.STEP and SEG.RUN touch OUT and OUTN. -/
theorem exec_out_eq_of_not_segmenter {i : Instr} {s t : State} (hstep : i ≠ .segStep) (hrun : i ≠ .segRun)
    (h : exec i s = .next t) : t.out = s.out ∧ t.outn = s.outn := by
  cases i with
  | segStep => exact absurd rfl hstep
  | segRun => exact absurd rfl hrun
  | crcSeed | crcByte | crcRd | segStart | stRd => cases h; exact ⟨rfl, rfl⟩

/-- OUT at `t` is OUT at `s` with bytes appended, possibly none, and OUTN has counted them (R29). -/
def AppendsOut (s t : State) : Prop := ∃ bs, t.out = s.out ++ bs ∧ t.outn = s.outn + bs.length

theorem AppendsOut.of_eq {s t : State} (hout : t.out = s.out) (houtn : t.outn = s.outn) : AppendsOut s t :=
  ⟨[], by rw [hout, List.append_nil], houtn⟩

theorem AppendsOut.trans {s u t : State} (h : AppendsOut s u) (h' : AppendsOut u t) : AppendsOut s t := by
  obtain ⟨xs, hout, houtn⟩ := h
  obtain ⟨ys, hout', houtn'⟩ := h'
  exact ⟨xs ++ ys, by rw [hout', hout, List.append_assoc],
    by rw [houtn', houtn, List.length_append, Nat.add_assoc]⟩

/-- What a segment step appends is the record of its segment. -/
theorem segStep_appendsOut {s t : State} (h : segStep s = .next t) : AppendsOut s t := by
  obtain ⟨-, rfl⟩ := segStep_next h
  exact ⟨_, emitSegment_out _ _, emitSegment_outn _ _⟩

/-- Every operation that completes only appends to OUT. -/
theorem exec_appendsOut {i : Instr} {s t : State} (h : exec i s = .next t) : AppendsOut s t := by
  by_cases hi : i = .segStep ∨ i = .segRun
  · exact exec_segmenter_induct (P := AppendsOut) (fun _ => .of_eq rfl rfl)
      (fun _ _ _ _ hpass ih => (segStep_appendsOut hpass).trans ih) hi h
  · obtain ⟨hstep, hrun⟩ := not_or.mp hi
    obtain ⟨hout, houtn⟩ := exec_out_eq_of_not_segmenter hstep hrun h
    exact .of_eq hout houtn

/-- Every operation that completes keeps OUTN the length of OUT. -/
theorem exec_memory_wf {i : Instr} {s t : State} (hwf : Memory.wf s) (h : exec i s = .next t) : Memory.wf t := by
  obtain ⟨bs, hout, houtn⟩ := exec_appendsOut h
  simp [Memory.wf, hout, houtn, hwf]

/-- No operation rewrites a byte of OUT: what the host read below OUTN it reads again. -/
theorem exec_readOut_of_lt {i : Instr} {s t : State} (hwf : Memory.wf s) (h : exec i s = .next t)
    {pos : Nat} (hpos : pos < s.outn) : readOut t pos = readOut s pos := by
  obtain ⟨bs, hout, -⟩ := exec_appendsOut h
  rw [readOut_eq t (exec_memory_wf hwf h), readOut_eq s hwf, hout, List.getElem?_append_left (hwf ▸ hpos)]

/-- The host reads a byte of OUT exactly below OUTN. -/
theorem readOut_isSome_iff {s : State} (hwf : Memory.wf s) (pos : Nat) : (readOut s pos).isSome ↔ pos < s.outn := by
  rw [readOut_eq s hwf, isSome_getElem?, hwf]

/-! ### RSP -/

/-- SEG.STEP and SEG.RUN leave RSP as it is. -/
theorem exec_segmenter_rsp {i : Instr} {s t : State} (hi : i = .segStep ∨ i = .segRun) (h : exec i s = .next t) :
    t.rsp = s.rsp := by
  refine exec_segmenter_induct (P := fun s t => t.rsp = s.rsp) (fun _ => rfl) (fun s u t _ hpass ih => ?_) hi h
  obtain ⟨-, rfl⟩ := segStep_next hpass
  exact ih

theorem lo8_eq_ofNat {n : Nat} (v : BitVec n) : lo8 v = BitVec.ofNat 8 (v.toNat % 256) := by
  apply BitVec.eq_of_toNat_eq
  simp [lo8]

theorem mid8_eq_ofNat {n : Nat} (v : BitVec n) : mid8 v = BitVec.ofNat 8 (v.toNat / 256 % 256) := by
  apply BitVec.eq_of_toNat_eq
  simp [mid8, Nat.shiftRight_eq_div_pow]

/-- The bytes that carry a 16-bit value are its little-endian bytes (20_memory.md R57). -/
theorem halfBytes_eq_leBytes (v : Half) : halfBytes v = leBytes 2 v.toNat := by
  rw [halfBytes, lo8_eq_ofNat, mid8_eq_ofNat]
  rfl

/-! ### The obligations -/

/-- Settles O45: every operation only appends to OUT, with OUTN counting what it appends. -/
theorem outOnlyGrows : Obligations.OutOnlyGrows := by
  refine ⟨rfl, rfl, fun i s t hwf h => ⟨exec_memory_wf hwf h, ?_, ?_, ?_⟩, fun s pos hwf => readOut_isSome_iff hwf pos⟩
  · obtain ⟨bs, -, houtn⟩ := exec_appendsOut h
    exact houtn ▸ Nat.le_add_right _ _
  · exact fun pos hpos => exec_readOut_of_lt hwf h hpos
  · exact fun hstep hrun => exec_out_eq_of_not_segmenter hstep hrun h

/-- Settles O47, by the operation: the two reads respond once, and a run of segment steps never does. -/
theorem onlyReadsRespond : Obligations.OnlyReadsRespond := by
  refine ⟨rfl, fun i s t h => ?_, halfBytes_eq_leBytes⟩
  cases i with
  | crcRd | stRd => cases h; rfl
  | crcSeed | crcByte | segStart => cases h; exact (List.append_nil _).symm
  | segStep => simpa using exec_segmenter_rsp (.inl rfl) h
  | segRun => simpa using exec_segmenter_rsp (.inr rfl) h

/-- Settles O11: the registers and the two reads by evaluation, the segmenter's operations because REM is 0. -/
theorem resetLeavesTheSpecsValues : Obligations.ResetLeavesTheSpecsValues :=
  ⟨rfl, rfl, rfl, rfl, rfl, rfl, rfl, rfl, rfl, rfl, rfl, rfl,
    exec_segStep_of_rem_eq_zero rfl, exec_segRun_of_rem_eq_zero rfl, rfl⟩

end Sys2Proof.Proofs

/-! PROOFS. The bytewise carriage of a command word (20_memory.md R58). -/

namespace Sys2Proof.Proofs

open Sys2Proof.Machine Sys2Proof.Safety

/-- Eight bits cut out of a value, in the plain arithmetic of `leBytes`; `lo8_eq_ofNat` at any bit position. -/
theorem extractLsb'_eight_eq_ofNat {n : Nat} (v : BitVec n) (start : Nat) :
    v.extractLsb' start 8 = BitVec.ofNat 8 (v.toNat / 2 ^ start % 256) := by
  apply BitVec.eq_of_toNat_eq
  simp [Nat.shiftRight_eq_div_pow]

/-- The four bytes that carry a command word are its little-endian bytes (R57's order). -/
theorem wordBytes_eq_leBytes (w : CmdWord) : wordBytes w = leBytes 4 w.toNat := by
  simp only [wordBytes, leBytes, extractLsb'_eight_eq_ofNat, Nat.div_div_eq_div_mul]
  norm_num

/-- Four adjacent bytes of a command word, put together highest first, are the word. -/
theorem append_bytes_eq_word (w : CmdWord) :
    w.extractLsb' 24 8 ++ w.extractLsb' 16 8 ++ w.extractLsb' 8 8 ++ w.extractLsb' 0 8 = w := by
  rw [BitVec.extractLsb'_append_extractLsb'_eq_extractLsb' (by rfl),
    BitVec.extractLsb'_append_extractLsb'_eq_extractLsb' (by rfl),
    BitVec.extractLsb'_append_extractLsb'_eq_extractLsb' (by rfl)]
  exact BitVec.extractLsb'_eq_self

/-- A command word carried bytewise is read back, whatever bytes follow it. -/
theorem takeWord_wordBytes_append (w : CmdWord) (rest : List Byte) :
    takeWord (wordBytes w ++ rest) = some (w, rest) :=
  congrArg (fun v => some (v, rest)) (append_bytes_eq_word w)

/-- Settles O6: the byte order by cutting the word into its bytes, the read-back by joining them again. -/
theorem commandWordsCarriedLowByteFirst : Obligations.CommandWordsCarriedLowByteFirst :=
  fun w rest => ⟨wordBytes_eq_leBytes w, takeWord_wordBytes_append w rest⟩

end Sys2Proof.Proofs

/-! PROOFS. Decoding and encoding of command words (30_encoding.md R83, R84, R86). -/

namespace Sys2Proof.Proofs

open Sys2Proof.Machine

/-! ### The fields of a word in plain arithmetic (R80 to R82) -/

theorem toNat_extractLsb'_eq_div_mod (w : CmdWord) (start len : Nat) :
    (w.extractLsb' start len).toNat = w.toNat / 2 ^ start % 2 ^ len := by
  rw [BitVec.extractLsb'_toNat, Nat.shiftRight_eq_div_pow]

theorem opField_eq_iff (w : CmdWord) (op : Byte) : opField w = op ↔ w.toNat / 0x1000000 = op.toNat := by
  rw [opField, ← BitVec.toNat_inj, toNat_extractLsb'_eq_div_mod]
  omega

theorem reservedHClear_iff (w : CmdWord) : reservedHClear w = true ↔ w.toNat % 0x1000000 / 0x10000 = 0 := by
  rw [reservedHClear, beq_iff_eq, ← BitVec.toNat_inj, toNat_extractLsb'_eq_div_mod, BitVec.toNat_ofNat]
  omega

theorem reservedBClear_iff (w : CmdWord) : reservedBClear w = true ↔ w.toNat % 0x1000000 / 0x100 = 0 := by
  rw [reservedBClear, beq_iff_eq, ← BitVec.toNat_inj, toNat_extractLsb'_eq_div_mod, BitVec.toNat_ofNat]
  omega

theorem reservedZClear_iff (w : CmdWord) : reservedZClear w = true ↔ w.toNat % 0x1000000 = 0 := by
  rw [reservedZClear, argField, beq_iff_eq, ← BitVec.toNat_inj, toNat_extractLsb'_eq_div_mod, BitVec.toNat_ofNat]
  omega

theorem imm16Field_eq_ofNat (w : CmdWord) : imm16Field w = BitVec.ofNat 16 (w.toNat % 0x1000000) := by
  apply BitVec.eq_of_toNat_eq
  simp [imm16Field]

theorem imm8Field_eq_ofNat (w : CmdWord) : imm8Field w = BitVec.ofNat 8 (w.toNat % 0x1000000) := by
  apply BitVec.eq_of_toNat_eq
  simp [imm8Field]

theorem argField_eq_ofNat (w : CmdWord) : argField w = BitVec.ofNat 24 (w.toNat % 0x1000000) := by
  apply BitVec.eq_of_toNat_eq
  simp [argField]

/-! ### R86's pseudocode -/

/-- R86's pseudocode on the opcode and the argument of a word, `none` where it says Illegal. -/
def decodeFields (op arg : Nat) : Option Instr :=
  if op = 0x01 ∧ arg / 0x10000 = 0 then some (.crcSeed (BitVec.ofNat 16 arg))
  else if op = 0x02 ∧ arg / 0x100 = 0 then some (.crcByte (BitVec.ofNat 8 arg))
  else if op = 0x03 ∧ arg = 0 then some .crcRd
  else if op = 0x10 then some (.segStart (BitVec.ofNat 24 arg))
  else if op = 0x11 ∧ arg = 0 then some .segStep
  else if op = 0x12 ∧ arg = 0 then some .segRun
  else if op = 0x20 ∧ arg = 0 then some .stRd
  else none

@[simp] theorem instr?_legal (i : Instr) : (Decoded.legal i).instr? = some i := rfl

@[simp] theorem instr?_illegal (why : IllegalWord) : (Decoded.illegal why).instr? = none := rfl

theorem instr?_legalIf (clear : Bool) (i : Instr) :
    (legalIf clear i).instr? = if clear = true then some i else none := by
  cases clear <;> rfl

theorem instr?_eq_some_iff (d : Decoded) (i : Instr) : d.instr? = some i ↔ d = .legal i := by
  cases d <;> simp

/-- The decoder tests the opcode and then the reserved bits, the pseudocode both at once: the two agree because no two
branches share an opcode. -/
theorem instr?_decode (w : CmdWord) :
    (decode w).instr? = decodeFields (w.toNat / 0x1000000) (w.toNat % 0x1000000) := by
  simp only [decode, opField_eq_iff, apply_ite Decoded.instr?, instr?_legalIf, reservedHClear_iff, reservedBClear_iff,
    reservedZClear_iff, imm16Field_eq_ofNat, imm8Field_eq_ofNat, argField_eq_ofNat]
  unfold decodeFields
  generalize w.toNat / 0x1000000 = op
  by_cases h1 : op = 0x01
  · simp [h1]
  by_cases h2 : op = 0x02
  · simp [h2]
  by_cases h3 : op = 0x03
  · simp [h3]
  by_cases h10 : op = 0x10
  · simp [h10]
  by_cases h11 : op = 0x11
  · simp [h11]
  by_cases h12 : op = 0x12
  · simp [h12]
  simp [h1, h2, h3, h10, h11, h12, ite_and]

/-! ### The words of the operations (R86) -/

/-- The opcode of an operation. -/
def opcodeOf : Instr → Nat
  | .crcSeed _ => 0x01
  | .crcByte _ => 0x02
  | .crcRd => 0x03
  | .segStart _ => 0x10
  | .segStep => 0x11
  | .segRun => 0x12
  | .stRd => 0x20

/-- The operand of an operation as a number, 0 where it has none. -/
def operandOf : Instr → Nat
  | .crcSeed v => v.toNat
  | .crcByte b => b.toNat
  | .segStart a => a.toNat
  | .crcRd | .segStep | .segRun | .stRd => 0

theorem operandOf_lt (i : Instr) : operandOf i < 0x1000000 := by
  cases i <;> simp only [operandOf] <;> omega

/-- An operand of at most 24 bits stands below an opcode in the high byte. -/
theorem toNat_or_zeroExtend {n : Nat} (hn : n ≤ 24) (op : Nat) (hop : op < 0x100) (v : BitVec n) :
    (BitVec.ofNat 32 (op * 0x1000000) ||| v.zeroExtend 32).toNat = op * 0x1000000 + v.toNat := by
  have hv : v.toNat < 2 ^ 24 := v.isLt.trans_le (Nat.pow_le_pow_right (by omega) hn)
  rw [BitVec.toNat_or, BitVec.toNat_ofNat, Nat.mod_eq_of_lt (by omega), BitVec.zeroExtend, BitVec.toNat_setWidth,
    Nat.mod_eq_of_lt (by omega), Nat.mul_comm]
  exact (Nat.two_pow_add_eq_or_of_lt hv op).symm

theorem toNat_encode (i : Instr) : (encode i).toNat = opcodeOf i * 0x1000000 + operandOf i := by
  cases i with
  | crcSeed v => exact toNat_or_zeroExtend (by omega) 0x01 (by omega) v
  | crcByte b => exact toNat_or_zeroExtend (by omega) 0x02 (by omega) b
  | segStart a => exact toNat_or_zeroExtend (by omega) 0x10 (by omega) a
  | crcRd | segStep | segRun | stRd => rfl

/-- The pseudocode gives an operation exactly on the operation's own opcode and operand. -/
theorem decodeFields_eq_some_iff {op arg : Nat} (harg : arg < 0x1000000) (i : Instr) :
    decodeFields op arg = some i ↔ op = opcodeOf i ∧ arg = operandOf i := by
  constructor
  · intro h
    unfold decodeFields at h
    split_ifs at h <;> cases h
    all_goals
      simp only [opcodeOf, operandOf, BitVec.toNat_ofNat]
      omega
  · rintro ⟨rfl, rfl⟩
    cases i with
    | crcSeed v => simp [decodeFields, opcodeOf, operandOf, v.isLt]
    | crcByte b => simp [decodeFields, opcodeOf, operandOf, b.isLt]
    | segStart a => simp [decodeFields, opcodeOf, operandOf]
    | crcRd | segStep | segRun | stRd => rfl

/-- A word decodes to an operation exactly when it is the operation's word. -/
theorem decode_eq_legal_iff (w : CmdWord) (i : Instr) : decode w = .legal i ↔ w = encode i := by
  have hlt := operandOf_lt i
  rw [← instr?_eq_some_iff, instr?_decode, decodeFields_eq_some_iff (Nat.mod_lt _ (by omega)), ← BitVec.toNat_inj,
    toNat_encode]
  omega

theorem decode_encode (i : Instr) : decode (encode i) = .legal i := (decode_eq_legal_iff _ _).mpr rfl

theorem encode_injective : Function.Injective encode := fun i j h => by
  simpa [decode_encode] using congrArg decode h

/-! ### The rows of the opcode map (R83) -/

/-- A mask that is 0 exactly on the low `n` bits lets through a pattern with any `n`-bit operand below it, and nothing
else. -/
theorem and_mask_eq_iff {n : Nat} {p m : CmdWord} (hp : p &&& m = p) (hm : m = BitVec.allOnes 32 <<< n)
    (w : CmdWord) : w &&& m = p ↔ ∃ v : BitVec n, w = p ||| v.zeroExtend 32 := by
  constructor
  · rintro rfl
    refine ⟨w.setWidth n, BitVec.eq_of_getLsbD_eq fun i hi => ?_⟩
    by_cases hin : i < n
    · simp [hm, hi, hin]
    · simp [hm, hi, hin, -BitVec.reduceAllOnes]
  · rintro ⟨v, rfl⟩
    rw [Laws.EncodingRow.or_zeroExtend_and p m v (fun i hi => by simp [hm, hi]), hp]

/-- The row of an operation without operand tests every bit. -/
theorem and_fullMask_eq_iff (w p : CmdWord) : w &&& 0xFFFFFFFF#32 = p ↔ w = p := by
  rw [show 0xFFFFFFFF#32 = BitVec.allOnes 32 from rfl, BitVec.and_allOnes]

/-- Settles O3: each test leaves the operand's bits free and fixes the others, as `encode` does. -/
theorem rowTestsSelectOperations : Obligations.RowTestsSelectOperations := by
  intro w
  simp only [decode_eq_legal_iff, and_fullMask_eq_iff]
  exact ⟨and_mask_eq_iff (n := 16) rfl rfl w, and_mask_eq_iff (n := 8) rfl rfl w, .rfl,
    and_mask_eq_iff (n := 24) rfl rfl w, .rfl, .rfl, .rfl⟩

/-- Settles O2: the decoder by the fields of a word, the encoder by the place of the operand below the opcode. -/
theorem decodingFollowsThePseudocode : Obligations.DecodingFollowsThePseudocode := by
  refine ⟨instr?_decode, fun v => ?_, fun b => ?_, rfl, fun a => ?_, rfl, rfl, rfl⟩
  all_goals
    rw [toNat_encode]
    simp only [opcodeOf, operandOf]

/-! ### Legal and illegal words (R84) -/

theorem exists_instr_iff {P : Instr → Prop} :
    (∃ i, P i) ↔ (∃ v, P (.crcSeed v)) ∨ (∃ b, P (.crcByte b)) ∨ P .crcRd ∨ (∃ a, P (.segStart a)) ∨
      P .segStep ∨ P .segRun ∨ P .stRd := by
  constructor
  · rintro ⟨_ | _ | _ | _ | _ | _ | _, h⟩
    · exact .inl ⟨_, h⟩
    · exact .inr (.inl ⟨_, h⟩)
    · exact .inr (.inr (.inl h))
    · exact .inr (.inr (.inr (.inl ⟨_, h⟩)))
    · exact .inr (.inr (.inr (.inr (.inl h))))
    · exact .inr (.inr (.inr (.inr (.inr (.inl h)))))
    · exact .inr (.inr (.inr (.inr (.inr (.inr h)))))
  · rintro (⟨v, h⟩ | ⟨b, h⟩ | h | ⟨a, h⟩ | h | h | h) <;> exact ⟨_, h⟩

/-- Some row accepts a word exactly when the word decodes to some operation. -/
theorem any_accepts_iff (w : CmdWord) :
    opcodeMap.any (fun r => r.accepts w) = true ↔ ∃ i, decode w = .legal i := by
  obtain ⟨hSeed, hByte, hRd, hStart, hStep, hRun, hSt⟩ := rowTestsSelectOperations w
  simp only [opcodeMap, List.any_cons, List.any_nil, Bool.or_eq_true, Bool.or_false, OpcodeRow.accepts, beq_iff_eq]
  rw [hSeed, hByte, hRd, hStart, hStep, hRun, hSt, exists_instr_iff]

theorem instr?_eq_none_iff (w : CmdWord) : (decode w).instr? = none ↔ ∀ i, w ≠ encode i := by
  simp only [Option.eq_none_iff_forall_ne_some, ne_eq, instr?_eq_some_iff, decode_eq_legal_iff]

theorem issueWord_of_instr?_eq_none {w : CmdWord} (h : (decode w).instr? = none) (s : State) :
    issueWord w s = .next (raiseCmdError s) := by
  cases hd : decode w with
  | legal i => rw [hd] at h; cases h
  | illegal why => exact issueWord_illegal hd s

theorem setOf_legal_eq_range_encode : { w : CmdWord | (decode w).instr? ≠ none } = Set.range encode := by
  ext w
  change ¬ (decode w).instr? = none ↔ ∃ i, encode i = w
  rw [instr?_eq_none_iff]
  simp only [ne_eq, not_forall, not_not, eq_comm]

/-- An operation is an operand of one of the three rows that have one, or one of the four rows that have none. -/
def instrEquiv : Instr ≃ Half ⊕ Byte ⊕ Addr ⊕ Fin 4 where
  toFun
    | .crcSeed v => .inl v
    | .crcByte b => .inr (.inl b)
    | .segStart a => .inr (.inr (.inl a))
    | .crcRd => .inr (.inr (.inr 0))
    | .segStep => .inr (.inr (.inr 1))
    | .segRun => .inr (.inr (.inr 2))
    | .stRd => .inr (.inr (.inr 3))
  invFun := Sum.elim .crcSeed (Sum.elim .crcByte (Sum.elim .segStart ![.crcRd, .segStep, .segRun, .stRd]))
  left_inv i := by cases i <;> rfl
  right_inv x := by
    rcases x with v | b | a | k
    · rfl
    · rfl
    · rfl
    · fin_cases k <;> rfl

theorem card_bitVec (n : Nat) : Nat.card (BitVec n) = 2 ^ n := Nat.card_eq_of_equiv_fin BitVec.equivFin.toEquiv

/-- Operands of 16, 8 and 24 bits, and four operations without one. -/
theorem card_instr : Nat.card Instr = 2 ^ 16 + (2 ^ 8 + (2 ^ 24 + 4)) := by
  rw [Nat.card_congr instrEquiv, Nat.card_sum, Nat.card_sum, Nat.card_sum, card_bitVec, card_bitVec, card_bitVec,
    Nat.card_fin]

/-- Settles O4: the rows by O3's tests, and the count because the legal words are the words of the operations, each of
one operation only. -/
theorem illegalWordsAreThoseNoRowMatches : Obligations.IllegalWordsAreThoseNoRowMatches := by
  refine ⟨fun w => ?_, fun w s h => issueWord_of_instr?_eq_none h s, rfl, rfl, ?_⟩
  · rw [← Bool.not_eq_true, any_accepts_iff, not_exists, instr?_eq_none_iff]
    simp only [decode_eq_legal_iff, ne_eq]
  · rw [setOf_legal_eq_range_encode, Set.ncard_range_of_injective encode_injective, card_instr]
    norm_num

end Sys2Proof.Proofs

/-! PROOFS. The pseudo-operations (30_encoding.md R96). -/

namespace Sys2Proof.Proofs

open Sys2Proof.Machine Sys2Proof.Safety

/-! ### Assembling -/

/-- An operation as the assembler reads it. -/
def toSource : Instr → SourceOp
  | .crcSeed v => .crcSeed v.toNat
  | .crcByte b => .crcByte b.toNat
  | .crcRd => .crcRd
  | .segStart a => .segStart a.toNat
  | .segStep => .segStep
  | .segRun => .segRun
  | .stRd => .stRd

/-- A number that fits its format's width is in the range of R95. -/
theorem wellFormed_toSource (i : Instr) : (toSource i).wellFormed = true := by
  cases i with
  | crcSeed v => exact decide_eq_true (by omega)
  | crcByte b => exact decide_eq_true (by omega)
  | segStart a => exact decide_eq_true (by omega)
  | crcRd | segStep | segRun | stRd => rfl

theorem assembleOp_toSource (i : Instr) : assembleOp (toSource i) = .ok i := by
  rw [assembleOp.eq_def, if_neg (by simp [wellFormed_toSource])]
  cases i <;> simp [toSource]

theorem assembleOps_map_toSource (is : List Instr) : assembleOps (is.map toSource) = .ok is := by
  induction is with
  | nil => rfl
  | cons i rest ih => rw [List.map_cons, assembleOps, assembleOp_toSource, ih]

theorem map_toSource_crcByte (bytes : List Byte) :
    (bytes.map Instr.crcByte).map toSource = (bytes.map BitVec.toNat).map .crcByte := by
  simp [toSource]

/-! ### Issuing -/

theorem issue_append (is js : List Instr) {s t : State} (h : issue is s = .next t) :
    issue (is ++ js) s = issue js t := by
  induction is generalizing s with
  | nil => cases h; rfl
  | cons i rest ih =>
    rw [issue] at h
    rw [List.cons_append, issue]
    cases he : exec i s with
    | next u => rw [he] at h; exact ih h
    | fault | refused => rw [he] at h; cases h

/-- CRC.BYTE issued for each byte runs the CRC over the bytes (40_crc.md R113). -/
theorem issue_map_crcByte (bytes : List Byte) (s : State) :
    issue (bytes.map .crcByte) s = .next { s with crc := crcRun s.crc bytes } := by
  induction bytes generalizing s with
  | nil => rfl
  | cons b rest ih => exact ih (writeCrc (crcUpd s.crc b) s)

/-- The operations of CRC16 (R96). -/
def crc16Ops (bytes : List Byte) : List Instr := .crcSeed 0x0000#16 :: bytes.map .crcByte ++ [.crcRd]

theorem map_toSource_crc16Ops (bytes : List Byte) :
    (crc16Ops bytes).map toSource = PseudoOp.expand (.crc16 (bytes.map BitVec.toNat)) := by
  rw [crc16Ops, List.map_append, List.map_cons, map_toSource_crcByte]
  rfl

/-- CRC16 leaves the CRC of its bytes in CRC, and appends it to RSP. -/
theorem issue_crc16Ops (bytes : List Byte) (s : State) :
    issue (crc16Ops bytes) s = .next { s with crc := crc16 bytes, rsp := s.rsp ++ [crc16 bytes] } :=
  issue_append _ [.crcRd] (issue_map_crcByte bytes (writeCrc Config.seed0 s))

/-- Settles O50: every expansion is a list of operations written as source operations, which assembles back to it. -/
theorem pseudoOperationsExpand : Obligations.PseudoOperationsExpand := by
  refine ⟨assembleOps_map_toSource [.crcSeed 0x0000#16], fun bytes => ?_,
    fun bytes s => ⟨crc16Ops bytes, ?_, rfl, issue_crc16Ops bytes s⟩,
    fun a => assembleOps_map_toSource [.segStart a, .segRun]⟩
  · rw [PseudoOp.expand, ← map_toSource_crcByte, assembleOps_map_toSource]
  · rw [← map_toSource_crc16Ops, assembleOps_map_toSource]

end Sys2Proof.Proofs

/-! PROOFS. The CRC engine and its three operations (40_crc.md R110 to R117). -/

namespace Sys2Proof.Proofs

open Sys2Proof.Machine Sys2Proof.Safety

/-! ### The update as R112's one expression -/

/-- R111's equivalent form of the table. -/
theorem par_eq_xor_bits : ∀ n : BitVec 4, par n = (n[0] ^^ n[1] ^^ n[2] ^^ n[3]) := by decide

/-- The parity of a byte is that of its two nibbles together. -/
theorem par_xor_par_eq_byteParity (d : Byte) :
    (par (d.extractLsb' 0 4) ^^ par (d.extractLsb' 4 4)) = byteParity d := by
  simp [par_eq_xor_bits, byteParity, BitVec.getLsbD_eq_getElem]

/-- The eight steps of `CrcUpd` are R112's one expression. -/
theorem crcUpd_eq_formula (s : Half) (b : Byte) : crcUpd s b = crcUpdFormula s b := by
  have hlow : s.extractLsb' 0 8 = BitVec.ofNat 8 s.toNat := BitVec.eq_of_toNat_eq (by simp)
  have hmask (v : Half) : v &&& 0xFFFF#16 = v := BitVec.and_allOnes
  have hext (d : Byte) : d.zeroExtend 16 = BitVec.ofNat 16 d.toNat := BitVec.eq_of_toNat_eq (by simp)
  have hshift (v : Half) : v <<< 6 <<< 1 = v <<< 7 := (BitVec.shiftLeft_add v 6 1).symm
  simp only [crcUpd, crcUpdFormula, hlow, hmask, hext, hshift, par_xor_par_eq_byteParity]
  split
  · rfl
  · rw [BitVec.xor_zero]

/-- A byte equal to the seed's low byte makes `dat` 0, so only the shift is left (R116). -/
theorem crcUpd_of_eq_low_byte {s : Half} {b : Byte} (h : BitVec.ofNat 8 s.toNat = b) : crcUpd s b = s >>> 8 := by
  have hdat : b ^^^ BitVec.ofNat 8 s.toNat = 0#8 := by rw [h, BitVec.xor_self]
  have hparity : byteParity 0#8 = false := rfl
  rw [crcUpd_eq_formula, crcUpdFormula, hdat, hparity]
  simp

/-- Zero bytes leave a zero CRC (R116). -/
theorem crc16_replicate_zero (n : Nat) : crc16 (List.replicate n 0x00#8) = 0x0000#16 := by
  induction n with
  | zero => rfl
  | succ n ih =>
    have hzero : crcUpd Config.seed0 0x00#8 = Config.seed0 := crcUpd_of_eq_low_byte rfl
    rw [List.replicate_succ, crc16, crcRun, hzero]
    exact ih

theorem exec_crcByte_of_crcUpd_eq {b : Byte} {s : State} {v : Half} (h : crcUpd s.crc b = v) :
    exec (.crcByte b) s = .next { s with crc := v } := by
  subst h
  rfl

/-! ### Issuing a word by its opcode and its argument (R86) -/

theorem issueWord_of_decodeFields_eq_some {w : CmdWord} {i : Instr}
    (h : decodeFields (w.toNat / 0x1000000) (w.toNat % 0x1000000) = some i) (s : State) :
    issueWord w s = exec i s :=
  issueWord_legal ((instr?_eq_some_iff _ _).mp ((instr?_decode w).trans h)) s

theorem issueWord_of_decodeFields_eq_none {w : CmdWord}
    (h : decodeFields (w.toNat / 0x1000000) (w.toNat % 0x1000000) = none) (s : State) :
    issueWord w s = .next (raiseCmdError s) :=
  issueWord_of_instr?_eq_none ((instr?_decode w).trans h) s

/-- Reducing a number by a multiple of 2^k first does not change its low k bits. -/
theorem ofNat_mod_of_dvd {k m : Nat} (h : 2 ^ k ∣ m) (n : Nat) : BitVec.ofNat k (n % m) = BitVec.ofNat k n :=
  BitVec.eq_of_toNat_eq (Nat.mod_mod_of_dvd n h)

theorem decodeFields_crcSeed (arg : Nat) :
    decodeFields 0x01 arg = if arg / 0x10000 = 0 then some (.crcSeed (BitVec.ofNat 16 arg)) else none := by
  simp [decodeFields]

theorem decodeFields_crcByte (arg : Nat) :
    decodeFields 0x02 arg = if arg / 0x100 = 0 then some (.crcByte (BitVec.ofNat 8 arg)) else none := by
  simp [decodeFields]

theorem decodeFields_crcRd (arg : Nat) : decodeFields 0x03 arg = if arg = 0 then some .crcRd else none := by
  simp [decodeFields]

/-! ### The runs of segment steps that CRC.RD reads after (R117) -/

theorem exec_segStep_of_rem_ne_zero {s : State} (h : s.rem ≠ 0) : exec .segStep s = segStep s := if_neg h

theorem issue_cons_of_next {i : Instr} {s t : State} (h : exec i s = .next t) (rest : List Instr) :
    issue (i :: rest) s = issue rest t := by
  rw [issue, h]

/-- A segment step leaves in CRC the CRC of the bytes it took from the image. -/
theorem segStep_crc {s t : State} (h : segStep s = .next t) :
    t.crc = crc16 ((s.img.drop s.off).take (t.off - s.off)) := by
  obtain ⟨-, rfl⟩ := segStep_next h
  simp

/-- From `s`, some segment steps and then one more that has something to emit lead to `t`. -/
def EndsInSegStep (s t : State) : Prop :=
  ∃ k u, issue (List.replicate k .segStep) s = .next u ∧ u.rem ≠ 0 ∧ exec .segStep u = .next t

theorem EndsInSegStep.cons {s u t : State} (hstep : exec .segStep s = .next u) (h : EndsInSegStep u t) :
    EndsInSegStep s t := by
  obtain ⟨k, v, hissue, hrem, hlast⟩ := h
  exact ⟨k + 1, v, (issue_cons_of_next hstep _).trans hissue, hrem, hlast⟩

/-- SEG.RUN has nothing to do, or ends in a segment step. -/
theorem execSegRun_cases : ∀ s t : State, execSegRun s = .next t → (s.rem = 0 ∧ t = s) ∨ EndsInSegStep s t := by
  apply execSegRun_induct
  case done => exact fun s hr => .inl ⟨hr, rfl⟩
  case pass =>
    intro s u t hr hpass ih
    have hstep : exec .segStep s = .next u := (exec_segStep_of_rem_ne_zero hr).trans hpass
    rcases ih with ⟨-, rfl⟩ | hend
    · exact .inr ⟨0, s, rfl, hr, hstep⟩
    · exact .inr (hend.cons hstep)

/-! ### The obligations -/

/-- Settles O18: the update by R112's expression, the words by their opcode and argument. -/
theorem crcByteUpdatesCrc : Obligations.CrcByteUpdatesCrc := by
  refine ⟨fun b s => exec_crcByte_of_crcUpd_eq (crcUpd_eq_formula _ _),
    fun b s h => exec_crcByte_of_crcUpd_eq (crcUpd_of_eq_low_byte h), crc16_replicate_zero,
    fun w s hop hres => ?_, fun w s hop hres => ?_⟩
  · apply issueWord_of_decodeFields_eq_none
    rw [hop, decodeFields_crcByte, if_neg (by omega)]
  · rw [issueWord_of_decodeFields_eq_some (by rw [hop, decodeFields_crcByte, if_pos (by omega)]),
      ofNat_mod_of_dvd (by norm_num)]
    exact exec_crcByte_of_crcUpd_eq (crcUpd_eq_formula _ _)

/-- Settles O19: CRC after a segment by the step that emitted it, and the last step of SEG.RUN by induction on its
passes. -/
theorem crcRdAppendsCrc : Obligations.CrcRdAppendsCrc := by
  refine ⟨fun s => rfl, fun s => ?_, rfl, fun w s hop hw => ?_, rfl, fun s t hr h => ?_, fun s t hr h => ?_,
    fun v => ?_⟩
  · rw [issue_cons_of_next rfl, issue_cons_of_next rfl]
    simp [issue, respond]
  · apply issueWord_of_decodeFields_eq_none
    have harg : w.toNat % 0x1000000 ≠ 0 := by bv_omega
    rw [hop, decodeFields_crcRd, if_neg harg]
  · rw [exec_segStep_of_rem_ne_zero hr] at h
    rw [← segStep_crc h]
    rfl
  · exact (execSegRun_cases s t h).resolve_left fun ⟨hzero, _⟩ => hr hzero
  · rw [halfBytes, lo8_eq_ofNat, mid8_eq_ofNat, ofNat_mod_of_dvd (by norm_num), ofNat_mod_of_dvd (by norm_num)]

/-- Settles O22: `crcRun` is the fold by definition, and CRC.BYTE per byte runs it by induction on the bytes. -/
theorem crcRunFoldsTheBytes : Obligations.CrcRunFoldsTheBytes :=
  ⟨fun _ => rfl, fun v b rest => congrArg (crcRun · rest) (crcUpd_eq_formula v b), issue_map_crcByte⟩

/-- Settles O16: the table's sixteen entries. -/
theorem parityTableIsBitParity : Obligations.ParityTableIsBitParity := par_eq_xor_bits

/-- Settles O17: the words by their opcode and argument. -/
theorem crcSeedWritesCrc : Obligations.CrcSeedWritesCrc := by
  refine ⟨fun v s => rfl, fun u v s => rfl, fun w s hop hres => ?_, fun w s hop hres => ?_⟩
  · apply issueWord_of_decodeFields_eq_none
    rw [hop, decodeFields_crcSeed, if_neg (by omega)]
  · rw [issueWord_of_decodeFields_eq_some (by rw [hop, decodeFields_crcSeed, if_pos (by omega)]),
      ofNat_mod_of_dvd (by norm_num)]
    rfl

end Sys2Proof.Proofs

/-! PROOFS. The segmenter's operations and the status read (41_segmenter.md R141 to R154, R161). -/

namespace Sys2Proof.Proofs

open Sys2Proof.Machine Sys2Proof.Safety

/-! ### The page room and the segment length (R146, R147, R161) -/

/-- Settles O36: the room in plain arithmetic. -/
theorem pageRoomIsOneToPage : Obligations.PageRoomIsOneToPage := by
  refine fun ca => ⟨pageRoom_eq ca, pageRoom_pos ca, pageRoom_le ca, ?_⟩
  rw [pageRoom_eq]
  omega

/-- A length of at most 65536, minus one, fits the 16 bits of its field. -/
theorem lengthField_toNat {len : Nat} (h : len ≤ 65536) : (lengthField len).toNat = len - 1 := by
  rw [lengthField, BitVec.toNat_ofNat]
  exact Nat.mod_eq_of_lt (by omega)

/-- What a reader takes from the two bytes of a length field is the field plus one (30_encoding.md R92). -/
theorem storedLength_lo8_mid8 (v : Half) : storedLength (lo8 v) (mid8 v) = v.toNat + 1 := by
  rw [storedLength, lo8_eq_ofNat, mid8_eq_ofNat, BitVec.toNat_ofNat, BitVec.toNat_ofNat]
  omega

/-- Settles O37: a length from 1 to 65536 loses nothing in its field. -/
theorem segmentLengthIsNeverZero : Obligations.SegmentLengthIsNeverZero := by
  intro rem ca hr
  have hpos := segLen_pos ca hr
  have hle := segLen_le_page rem ca
  have hfield : (lengthField (segLen rem ca)).toNat + 1 = segLen rem ca := by
    rw [lengthField_toNat hle]
    omega
  exact ⟨hpos, hle, by omega, hfield, (storedLength_lo8_mid8 _).trans hfield⟩

/-! ### The status word (R144) -/

/-- The four flags stand in the low four bits of the status word. -/
theorem statusWord_low_bits : ∀ cmderr pberr awrap done : Bool,
    (statusWord cmderr pberr awrap done).getLsbD 0 = done ∧
    (statusWord cmderr pberr awrap done).getLsbD 1 = awrap ∧
    (statusWord cmderr pberr awrap done).getLsbD 2 = pberr ∧
    (statusWord cmderr pberr awrap done).getLsbD 3 = cmderr := by decide

theorem statusWord_toNat_le : ∀ cmderr pberr awrap done : Bool,
    (statusWord cmderr pberr awrap done).toNat ≤ 0x000F := by decide

/-- Bits 15:4 are 0, because the word is below 2^4. -/
theorem statusWord_high_bits (cmderr pberr awrap done : Bool) {i : Nat} (hi : 4 ≤ i) :
    (statusWord cmderr pberr awrap done).getLsbD i = false := by
  have hle := statusWord_toNat_le cmderr pberr awrap done
  have hpow : 2 ^ 4 ≤ 2 ^ i := Nat.pow_le_pow_right (by omega) hi
  exact Nat.testBit_lt_two_pow (by omega)

/-- ST.DONE reads 1 exactly when nothing is left (10_state.md R26). -/
theorem status_done_iff (s : State) : (status s).getLsbD 0 = true ↔ s.rem = 0 := by
  rw [status, (statusWord_low_bits _ _ _ _).1, doneFlag_iff]

theorem decodeFields_stRd (arg : Nat) : decodeFields 0x20 arg = if arg = 0 then some .stRd else none := by
  simp [decodeFields]

/-- Settles O48: the word's bits by its four flags, the words by their opcode and argument. -/
theorem stRdAppendsStatus : Obligations.StRdAppendsStatus := by
  refine ⟨fun s => ⟨status s, rfl, ?_⟩, rfl, rfl, fun w s hop hw => ?_⟩
  · obtain ⟨hdone, hawrap, hpberr, hcmderr⟩ := statusWord_low_bits s.cmderr s.pberr s.awrap (doneFlag s.rem)
    exact ⟨hdone, hawrap, hpberr, hcmderr, fun i hi => statusWord_high_bits _ _ _ _ hi, statusWord_toNat_le _ _ _ _⟩
  · apply issueWord_of_decodeFields_eq_none
    have harg : w.toNat % 0x1000000 ≠ 0 := by bv_omega
    rw [hop, decodeFields_stRd, if_neg harg]

/-! ### SEG.START (R141) -/

theorem decodeFields_segStart (arg : Nat) : decodeFields 0x10 arg = some (.segStart (BitVec.ofNat 24 arg)) := by
  simp [decodeFields]

theorem exec_segStart (a : Addr) (s : State) :
    exec (.segStart a) s = .next { s with la := a, ca := a, off := 0, rem := s.img.length } := rfl

/-- Settles O26: the effect by definition, every word because format A has no reserved bit, and the empty run because
nothing is left after its start. -/
theorem segStartBeginsRun : Obligations.SegStartBeginsRun := by
  refine ⟨exec_segStart, fun a s t h => ?_, fun w s hop => ?_, fun a s himg => ?_⟩
  · cases h
    exact status_done_iff _
  · rw [issueWord_of_decodeFields_eq_some (by rw [hop, decodeFields_segStart]), ofNat_mod_of_dvd (by norm_num),
      exec_segStart]
  · have hstart : exec (.segStart a) s = .next { s with la := a, ca := a, off := 0, rem := 0 } := by
      rw [exec_segStart, himg, List.length_nil]
    rw [issue_cons_of_next hstart, issue_cons_of_next (exec_segRun_of_rem_eq_zero rfl),
      issue_cons_of_next (exec_segStep_of_rem_eq_zero rfl)]
    rfl

/-! ### The record in plain arithmetic (30_encoding.md R87) -/

/-- The bytes that carry a 24-bit value are its little-endian bytes (20_memory.md R57). -/
theorem addrBytes_eq_leBytes (a : Addr) : addrBytes a = leBytes 3 a.toNat := by
  simp only [addrBytes, lo8, mid8, hi8, leBytes, extractLsb'_eight_eq_ofNat, Nat.div_div_eq_div_mul]
  norm_num

/-- Two little-endian bytes of a number are those of its low 16 bits. -/
theorem leBytes_two_mod (v : Nat) : leBytes 2 (v % 2 ^ 16) = leBytes 2 v := by
  have hlow : v % 2 ^ 16 % 256 = v % 256 := by omega
  have hhigh : v % 2 ^ 16 / 256 % 256 = v / 256 % 256 := by omega
  simp only [leBytes, hlow, hhigh]

/-- The model's record is R87's table in plain arithmetic. -/
theorem serialise_eq_segmentBytes (g : Segment) : serialise g = segmentBytes g := by
  rw [serialise, addrBytes_eq_leBytes, halfBytes_eq_leBytes, halfBytes_eq_leBytes, lengthField, BitVec.toNat_ofNat,
    leBytes_two_mod]
  rfl

/-! ### One segment step (R145, R149 to R151, R153, R154) -/

/-- The validator's verdict is the negation of R152's predicate. -/
theorem not_pageOK_eq (a : Addr) (n : Nat) : (!pageOK a n) = decide (0x10000 < a.toNat % 0x10000 + n) := by
  rw [Bool.eq_iff_iff, Bool.not_eq_true', Bool.eq_false_iff, Ne, pageOK_iff, decide_eq_true_iff, not_le]

/-- CA grows modulo 2^24 (R151). -/
theorem add_trunc24 (ca : Addr) (n : Nat) : ca + trunc24 n = BitVec.ofNat 24 (ca.toNat + n) := by
  rw [trunc24, BitVec.ofNat_add, BitVec.ofNat_toNat, BitVec.setWidth_eq]

/-- Everything the emission of a segment writes, in plain arithmetic. -/
theorem emitSegment_eq (g : Segment) (s : State) :
    emitSegment g s =
      { s with
        crc := g.crc
        awrap := s.awrap || decide (0x1000000 ≤ s.la.toNat + s.off)
        pberr := s.pberr || decide (0x10000 < g.address.toNat % 0x10000 + g.length)
        out := s.out ++ segmentBytes g
        outn := s.outn + (7 + g.data.length)
        off := s.off + g.length
        rem := s.rem - g.length
        ca := BitVec.ofNat 24 (s.ca.toNat + g.length) } := by
  rw [← not_pageOK_eq, ← add_trunc24, ← serialise_eq_segmentBytes, ← serialise_length]
  rfl

/-- A segment whose bytes are in the image is emitted. -/
theorem segStep_of_le {s : State} (h : s.off + segLen s.rem s.ca ≤ s.img.length) :
    segStep s = .next (emitSegment (segmentOf s ((s.img.drop s.off).take (segLen s.rem s.ca))) s) := by
  rcases segStep_cases s with ⟨-, he⟩ | ⟨hgt, -⟩
  · exact he
  · omega

/-- Settles O28: the emission of the registers' segment, each of its fields in plain arithmetic. -/
theorem segStepEmitsOneRecord : Obligations.SegStepEmitsOneRecord := by
  rintro s n a data hr hn rfl hle hdata
  rw [← segLen_eq] at hn
  have hlen : data.length = n := by simp [hdata]; omega
  subst hn
  rw [exec_segStep_of_rem_ne_zero hr, segStep_of_le hle, ← hdata, emitSegment_eq, segmentBytes]
  simp only [segmentOf_address, segmentOf_length, segmentOf_data, segmentOf_crc, segAddress_toNat, hlen]
  rfl

/-! ### SEG.RUN as repeated SEG.STEP (R143) -/

/-- A segment step lowers REM (R155). -/
theorem segStep_rem_lt {s t : State} (hr : s.rem ≠ 0) (h : segStep s = .next t) : t.rem < s.rem := by
  obtain ⟨-, rfl⟩ := segStep_next h
  have hpos := segLen_pos s.ca hr
  simp only [emitSegment_rem, segmentOf_length]
  omega

/-- SEG.RUN with something left makes one segment step and runs on from there. -/
theorem execSegRun_of_segStep {s t : State} (hr : s.rem ≠ 0) (h : segStep s = .next t) :
    execSegRun s = execSegRun t := by
  have hlt := segStep_rem_lt hr h
  obtain ⟨fuel, hfuel⟩ := Nat.exists_eq_succ_of_ne_zero hr
  rw [execSegRun, hfuel, segLoop, if_neg hr, h]
  exact segLoop_eq_execSegRun (by omega)

/-- SEG.RUN stops where its first segment step stops. -/
theorem execSegRun_of_segStep_fault {s : State} {r : Fault} (hr : s.rem ≠ 0) (h : segStep s = .fault r) :
    execSegRun s = .fault r := by
  obtain ⟨fuel, hfuel⟩ := Nat.exists_eq_succ_of_ne_zero hr
  rw [execSegRun, hfuel, segLoop, if_neg hr, h]

/-- A SEG.STEP before SEG.RUN changes nothing of its outcome, with something left or not. -/
theorem exec_segRun_after_segStep {s t : State} (h : exec .segStep s = .next t) :
    exec .segRun t = exec .segRun s := by
  rcases exec_segStep_next h with ⟨-, rfl⟩ | ⟨hr, hstep⟩
  · rfl
  · exact (execSegRun_of_segStep hr hstep).symm

/-- The first of several operations that complete completes, and so do the others after it. -/
theorem issue_cons_next {i : Instr} {rest : List Instr} {s t : State} (h : issue (i :: rest) s = .next t) :
    ∃ u, exec i s = .next u ∧ issue rest u = .next t := by
  rw [issue] at h
  cases he : exec i s with
  | next u => rw [he] at h; exact ⟨u, rfl, h⟩
  | fault | refused => rw [he] at h; cases h

theorem exec_segRun_after_segSteps (k : Nat) {s t : State} (h : issue (List.replicate k .segStep) s = .next t) :
    exec .segRun t = exec .segRun s := by
  induction k generalizing s with
  | zero => cases h; rfl
  | succ k ih =>
    obtain ⟨u, hstep, hrest⟩ := issue_cons_next h
    exact (ih hrest).trans (exec_segRun_after_segStep hstep)

/-- A SEG.RUN that completes has nothing left, and has done what at most REM times SEG.STEP does. -/
theorem execSegRun_eq_segSteps : ∀ s t : State, execSegRun s = .next t →
    t.rem = 0 ∧ ∃ k, k ≤ s.rem ∧ issue (List.replicate k .segStep) s = .next t := by
  apply execSegRun_induct
  case done => exact fun s hr => ⟨hr, 0, Nat.zero_le _, rfl⟩
  case pass =>
    rintro s u t hr hpass ⟨hdone, k, hk, hissue⟩
    have hlt := segStep_rem_lt hr hpass
    have hstep : exec .segStep s = .next u := (exec_segStep_of_rem_ne_zero hr).trans hpass
    exact ⟨hdone, k + 1, by omega, (issue_cons_of_next hstep _).trans hissue⟩

/-- Settles O31: one pass of the loop is one SEG.STEP, and the rest is induction on the passes and on the steps. -/
theorem segRunIsRepeatedSegStep : Obligations.SegRunIsRepeatedSegStep := by
  refine ⟨fun s hr => ?_, fun s => exec_segRun_of_rem_eq_zero, fun s t h => ?_,
    fun s t k h => exec_segRun_after_segSteps k h⟩
  · rw [exec_segStep_of_rem_ne_zero hr]
    rcases segStep_cases s with ⟨-, hstep⟩ | ⟨-, hstep⟩
    · rw [hstep]
      exact execSegRun_of_segStep hr hstep
    · rw [hstep]
      exact execSegRun_of_segStep_fault hr hstep
  · obtain ⟨hdone, k, -, hissue⟩ := execSegRun_eq_segSteps s t h
    exact ⟨(status_done_iff t).mpr hdone, k, hissue⟩

end Sys2Proof.Proofs

/-! PROOFS. The CMDERR condition (60_exceptions.md R181, R182). -/

namespace Sys2Proof.Proofs

open Sys2Proof.Machine

/-! ### The step of a command word -/

/-- A step whose move is a command word is the issuing of that word, with the move made. -/
theorem step_command {s : State} {w : CmdWord} {rest : List HostMove} (h : s.moves = .command w :: rest) :
    step s = issueWord w { s with moves := rest } := by
  unfold step stepHost
  rw [takeMove_cons s _ rest h]
  rfl

theorem step_command_legal {s : State} {w : CmdWord} {rest : List HostMove} {i : Instr}
    (h : s.moves = .command w :: rest) (hd : decode w = .legal i) :
    step s = exec i { s with moves := rest } :=
  (step_command h).trans (issueWord_legal hd _)

theorem step_command_illegal {s : State} {w : CmdWord} {rest : List HostMove} {why : IllegalWord}
    (h : s.moves = .command w :: rest) (hd : decode w = .illegal why) :
    step s = .next { s with moves := rest, cmderr := true } :=
  (step_command h).trans (issueWord_illegal hd _)

/-! ### CMDERR across an operation -/

/-- SEG.STEP and SEG.RUN leave CMDERR as it is, since no segment step writes it. -/
theorem exec_segmenter_cmderr {i : Instr} {s t : State} (hi : i = .segStep ∨ i = .segRun) (h : exec i s = .next t) :
    t.cmderr = s.cmderr := by
  refine exec_segmenter_induct (P := fun s t => t.cmderr = s.cmderr) (fun _ => rfl) (fun s u t _ hpass ih => ?_) hi h
  obtain ⟨-, rfl⟩ := segStep_next hpass
  exact ih.trans (emitSegment_cmderr _ s)

/-- No operation that completes sets or clears CMDERR. -/
theorem exec_cmderr {i : Instr} {s t : State} (h : exec i s = .next t) : t.cmderr = s.cmderr := by
  cases i with
  | crcSeed | crcByte | crcRd | segStart | stRd => cases h; rfl
  | segStep => exact exec_segmenter_cmderr (.inl rfl) h
  | segRun => exact exec_segmenter_cmderr (.inr rfl) h

/-- Settles O9: an illegal word only raises the flag, issuing a legal word does not consult it, and no operation
writes it. -/
theorem cmdErrorSetsOnlyItsFlag : Obligations.CmdErrorSetsOnlyItsFlag :=
  ⟨fun _ _ _ _ => step_command_illegal, fun _ _ _ _ _ => step_command_legal, fun _ _ _ => exec_cmderr⟩

end Sys2Proof.Proofs

/-! PROOFS. The reset event, and what no other move does (70_reset_and_hazards.md R210, R222). -/

namespace Sys2Proof.Proofs

open Sys2Proof.Machine

/-- A step whose move is reset resets the block, with the move made. -/
theorem step_reset {s : State} {rest : List HostMove} (h : s.moves = .reset :: rest) :
    step s = .next (resetBlock { s with moves := rest }) := by
  unfold step stepHost
  rw [takeMove_cons s _ rest h]
  rfl

/-- From `s` to `t` no sticky flag is cleared, and OUT and RSP lose nothing. -/
structure ClearsNothing (s t : State) : Prop where
  awrap : s.awrap = true → t.awrap = true
  pberr : s.pberr = true → t.pberr = true
  cmderr : s.cmderr = true → t.cmderr = true
  out : s.out <+: t.out
  rsp : s.rsp <+: t.rsp

theorem ClearsNothing.refl (s : State) : ClearsNothing s s :=
  ⟨id, id, id, List.prefix_rfl, List.prefix_rfl⟩

theorem ClearsNothing.trans {s u t : State} (h : ClearsNothing s u) (h' : ClearsNothing u t) : ClearsNothing s t :=
  ⟨h'.awrap ∘ h.awrap, h'.pberr ∘ h.pberr, h'.cmderr ∘ h.cmderr, h.out.trans h'.out, h.rsp.trans h'.rsp⟩

/-- A segment step only ors into AWRAP and PBERR, and only appends to OUT (41_segmenter.md R149, R153). -/
theorem segStep_clearsNothing {s t : State} (h : segStep s = .next t) : ClearsNothing s t := by
  obtain ⟨-, rfl⟩ := segStep_next h
  exact ⟨Bool.or_eq_true_iff.mpr ∘ .inl, Bool.or_eq_true_iff.mpr ∘ .inl, id, List.prefix_append _ _, List.prefix_rfl⟩

/-- No operation that completes clears a flag or takes anything from OUT or RSP (60_exceptions.md R184). -/
theorem exec_clearsNothing {i : Instr} {s t : State} (h : exec i s = .next t) : ClearsNothing s t := by
  have segmenter (hi : i = .segStep ∨ i = .segRun) : ClearsNothing s t :=
    exec_segmenter_induct (P := ClearsNothing) .refl
      (fun _ _ _ _ hpass ih => (segStep_clearsNothing hpass).trans ih) hi h
  cases i with
  | crcSeed | crcByte | segStart => cases h; exact ⟨id, id, id, List.prefix_rfl, List.prefix_rfl⟩
  | crcRd | stRd => cases h; exact ⟨id, id, id, List.prefix_rfl, List.prefix_append _ _⟩
  | segStep => exact segmenter (.inl rfl)
  | segRun => exact segmenter (.inr rfl)

/-- No step but a reset clears a flag or takes anything from OUT or RSP. -/
theorem step_clearsNothing {s t : State} (hreset : ∀ rest, s.moves ≠ .reset :: rest) (h : step s = .next t) :
    ClearsNothing s t := by
  rcases step_next h with ⟨-, rfl⟩ | ⟨w, rest, i, -, -, hexec⟩ | ⟨w, rest, why, -, -, rfl⟩ |
    ⟨img, rest, -, rfl, -, -⟩ | ⟨rest, hmoves, -⟩
  · exact .refl t
  · obtain ⟨hawrap, hpberr, hcmderr, hout, hrsp⟩ := exec_clearsNothing hexec
    exact ⟨hawrap, hpberr, hcmderr, hout, hrsp⟩
  · exact ⟨id, id, fun _ => rfl, List.prefix_rfl, List.prefix_rfl⟩
  · exact ⟨id, id, id, List.prefix_rfl, List.prefix_rfl⟩
  · exact absurd hmoves (hreset rest)

/-- Settles O10: the reset move is `resetBlock`, and every other step clears nothing. -/
theorem resetEventRestoresEveryRegister : Obligations.ResetEventRestoresEveryRegister := by
  refine ⟨fun _ _ => step_reset, fun s t hreset h => ?_⟩
  obtain ⟨hawrap, hpberr, hcmderr, hout, hrsp⟩ := step_clearsNothing hreset h
  exact ⟨hawrap, hpberr, hcmderr, hout, hrsp⟩

end Sys2Proof.Proofs

/-! PROOFS. Decoding and encoding as inverses, the host's moves, and the assembler's range rule (30_encoding.md R86 and
R95; 70_reset_and_hazards.md R212, R214, R222). -/

namespace Sys2Proof.Proofs

open Sys2Proof.Machine Sys2Proof.Safety

/-- Settles O1: a word is legal exactly as the word of its operation. -/
theorem decodeAndEncodeAgree : Obligations.DecodeAndEncodeAgree :=
  ⟨decode_encode, fun w i h => ((decode_eq_legal_iff w i).mp h).symm⟩

/-- Settles O5: the seven legal words are words of operations, the two illegal ones are rejected by evaluation. -/
theorem sampleWordsDecode : Obligations.SampleWordsDecode := by
  refine ⟨decode_encode (.crcSeed 0x1234#16), decode_encode (.crcByte 0xFF#8), decode_encode .crcRd,
    decode_encode (.segStart 0x0FFFF0#24), decode_encode .segStep, decode_encode .segRun, decode_encode .stRd, ?_, ?_⟩
  · decide
  · decide

/-- Settles O7: the step of a command word that is legal. -/
theorem stepRunsDecodedWord : Obligations.StepRunsDecodedWord := fun _ _ _ _ => step_command_legal

/-- Settles O8: with no move taken the block idles. -/
theorem stepIdlesWithoutMove : Obligations.StepIdlesWithoutMove := by
  intro s h
  unfold step stepHost
  rw [takeMove_nil s h]
  rfl

/-- A step whose move is a bind is the binding of that image, with the move made. -/
theorem step_bind {s : State} {img : List Byte} {rest : List HostMove} (h : s.moves = .bind img :: rest) :
    step s = bindImage img { s with moves := rest } := by
  unfold step stepHost
  rw [takeMove_cons s _ rest h]
  rfl

/-- An image that fits is bound unless it would replace another one during a run. -/
theorem bindImage_of_fits {img : List Byte} (hfit : imageFits img = true) (s : State) :
    bindImage img s =
      if s.rem ≠ 0 ∧ img ≠ s.img then .refused .imageChangedDuringRun else .next { s with img := img } := by
  rw [bindImage, if_neg (by simp [hfit])]

/-- Settles O12: an image below 2^32 bytes fits whatever LENW is, so only the run decides. -/
theorem imageIsBoundBetweenRuns : Obligations.ImageIsBoundBetweenRuns := by
  refine ⟨fun s img rest h hlen hrem => ?_, fun s img rest h hlen hrem himg => ?_⟩
  · rw [step_bind h, bindImage_of_fits (imageFits_of_lt hlen), if_neg fun hrun => hrun.1 hrem]
  · rw [step_bind h, bindImage_of_fits (imageFits_of_lt hlen), if_pos ⟨hrem, himg⟩]

/-- The range check comes before the operation is built: outside the range there is only the error. -/
theorem assembleOp_eq_ite {o : SourceOp} {i : Instr} {bound n : Nat} (hwf : o.wellFormed = decide (n ≤ bound))
    (hop : o.wellFormed = true → assembleOp o = .ok i) :
    assembleOp o = if bound < n then .error .operandOutOfRange else .ok i := by
  by_cases hn : n ≤ bound
  · rw [if_neg (by omega), hop (by rw [hwf, decide_eq_true hn])]
  · rw [if_pos (by omega), assembleOp.eq_def, if_pos (by rw [hwf, decide_eq_false hn])]

/-- Settles O49: each of the three formats by its own range. -/
theorem assemblerRejectsOperandsOutOfRange : Obligations.AssemblerRejectsOperandsOutOfRange := by
  refine ⟨fun n => assembleOp_eq_ite rfl fun h => ?_, fun n => assembleOp_eq_ite rfl fun h => ?_,
    fun n => assembleOp_eq_ite rfl fun h => ?_⟩
  all_goals rw [assembleOp.eq_def, if_neg (by simp [h])]

end Sys2Proof.Proofs

/-! PROOFS. The derived properties of the CRC update: the bit-serial loop, linearity, composition, the bit equations and
the residue (40_crc.md R118 to R122). -/

namespace Sys2Proof.Proofs

open Sys2Proof.Machine Sys2Proof.Safety

/-! ### The bit-serial loop (R119) -/

/-- A pass on an even value is a plain shift. -/
theorem crcShift_of_even {v : Half} (h : v.getLsbD 0 = false) : crcShift v = v >>> 1 :=
  if_neg (by rw [h]; exact Bool.false_ne_true)

theorem crcShift_of_odd {v : Half} (h : v.getLsbD 0 = true) : crcShift v = (v >>> 1) ^^^ 0xA001#16 := if_pos h

/-- A pass is XOR-linear: it shifts, and adds 0xA001 once for each operand that is odd. -/
theorem crcShift_xor (u v : Half) : crcShift (u ^^^ v) = crcShift u ^^^ crcShift v := by
  have hbit : (u ^^^ v).getLsbD 0 = (u.getLsbD 0 ^^ v.getLsbD 0) := BitVec.getLsbD_xor
  cases hu : u.getLsbD 0 <;> cases hv : v.getLsbD 0 <;> rw [hu, hv] at hbit
  · rw [crcShift_of_even hbit, crcShift_of_even hu, crcShift_of_even hv, BitVec.ushiftRight_xor_distrib]
  · rw [crcShift_of_odd hbit, crcShift_of_even hu, crcShift_of_odd hv, BitVec.ushiftRight_xor_distrib, BitVec.xor_assoc]
  · rw [crcShift_of_odd hbit, crcShift_of_odd hu, crcShift_of_even hv, BitVec.ushiftRight_xor_distrib]
    ac_rfl
  · rw [crcShift_of_even hbit, crcShift_of_odd hu, crcShift_of_odd hv, BitVec.ushiftRight_xor_distrib,
      BitVec.xor_assoc, BitVec.xor_comm (0xA001#16), BitVec.xor_assoc, BitVec.xor_self, BitVec.xor_zero]

theorem crcShift_iterate_xor (k : Nat) (u v : Half) :
    crcShift^[k] (u ^^^ v) = crcShift^[k] u ^^^ crcShift^[k] v := by
  induction k generalizing u v with
  | zero => rfl
  | succ k ih => rw [Function.iterate_succ_apply, crcShift_xor, ih]; rfl

/-- Passes that meet only zero bits are plain shifts. -/
theorem crcShift_iterate_of_low_bits_zero (k : Nat) {v : Half} (h : ∀ i, i < k → v.getLsbD i = false) :
    crcShift^[k] v = v >>> k := by
  induction k generalizing v with
  | zero => exact (BitVec.ushiftRight_zero v).symm
  | succ k ih =>
    have hshift : ∀ i, i < k → (v >>> 1).getLsbD i = false := fun i hi => by
      rw [BitVec.getLsbD_ushiftRight]
      exact h (1 + i) (by omega)
    rw [Function.iterate_succ_apply, crcShift_of_even (h 0 (by omega)), ih hshift, ← BitVec.shiftRight_add,
      Nat.add_comm]

/-- The eight passes on a byte, the table of R121: 256 values. -/
theorem crcShift_iterate_byte : ∀ d : Byte, crcShift^[8] (BitVec.ofNat 16 d.toNat) = crcUpdFormula 0x0000#16 d := by
  decide +kernel

/-- The update is the table at the byte and the low byte of the seed, and the seed shifted by a byte (R121). -/
theorem crcUpd_eq_table_xor_shift (s : Half) (b : Byte) :
    crcUpd s b = crcUpd 0x0000#16 (b ^^^ BitVec.ofNat 8 s.toNat) ^^^ (s >>> 8) := by
  have hzero (d : Byte) : d ^^^ BitVec.ofNat 8 (0x0000#16).toNat = d := BitVec.xor_zero
  rw [crcUpd_eq_formula, crcUpd_eq_formula]
  simp only [crcUpdFormula, hzero, BitVec.zero_ushiftRight, BitVec.zero_xor]
  ac_rfl

/-- The loop's start value is the table's index below the seed's high byte. -/
theorem xor_byte_eq_index_xor_high (s : Half) (b : Byte) :
    s ^^^ BitVec.ofNat 16 b.toNat = BitVec.ofNat 16 (b ^^^ BitVec.ofNat 8 s.toNat).toNat ^^^ (s >>> 8 <<< 8) := by
  simp only [BitVec.ofNat_toNat]
  apply BitVec.eq_of_getLsbD_eq
  intro i hi
  by_cases hlt : i < 8
  · simp [hi, hlt, Bool.xor_comm]
  · simp [hi, hlt, show 8 + (i - 8) = i by omega, Bool.xor_comm]

/-- The update is the bit-serial loop: eight passes shift the high byte down and turn the low one into its table entry. -/
theorem crcUpd_eq_iterate (s : Half) (b : Byte) : crcUpd s b = crcShift^[8] (s ^^^ BitVec.ofNat 16 b.toNat) := by
  have hhigh : ∀ i, i < 8 → (s >>> 8 <<< 8).getLsbD i = false := fun i hi => by simp [hi]
  have hshift : s >>> 8 <<< 8 >>> 8 = s >>> 8 := by
    apply BitVec.eq_of_getLsbD_eq
    intro i hi
    by_cases hlt : i < 8
    · simp [show 8 + i < 16 by omega]
    · simp [BitVec.getLsbD_of_ge s (8 + i) (by omega)]
  rw [xor_byte_eq_index_xor_high, crcShift_iterate_xor, crcShift_iterate_byte, crcShift_iterate_of_low_bits_zero 8 hhigh,
    hshift, ← crcUpd_eq_formula]
  exact crcUpd_eq_table_xor_shift s b

/-- Settles O21: the update as eight passes of the loop, and the check value by evaluation. -/
theorem crcUpdateIsBitSerial : Obligations.CrcUpdateIsBitSerial := ⟨crcUpd_eq_iterate, by decide +kernel⟩

/-! ### Linearity (R121) -/

theorem crcUpd_xor (s1 s2 : Half) (b1 b2 : Byte) :
    crcUpd (s1 ^^^ s2) (b1 ^^^ b2) = crcUpd s1 b1 ^^^ crcUpd s2 b2 := by
  have hstart : s1 ^^^ s2 ^^^ BitVec.ofNat 16 (b1 ^^^ b2).toNat =
      (s1 ^^^ BitVec.ofNat 16 b1.toNat) ^^^ (s2 ^^^ BitVec.ofNat 16 b2.toNat) := by
    simp only [BitVec.ofNat_toNat, BitVec.setWidth_xor]
    ac_rfl
  rw [crcUpd_eq_iterate, crcUpd_eq_iterate, crcUpd_eq_iterate, hstart, crcShift_iterate_xor]

/-- Only 0 goes to 0 in a pass: an odd value leaves bit 15 set, which the shift has cleared. -/
theorem eq_zero_of_crcShift_eq_zero {v : Half} (h : crcShift v = 0#16) : v = 0#16 := by
  cases hv : v.getLsbD 0
  · have hlow : v.toNat % 2 = 0 := by simpa [BitVec.getLsbD] using hv
    rw [crcShift_of_even hv] at h
    have hhigh : v.toNat / 2 = 0 := by
      simpa [Nat.shiftRight_eq_div_pow, -Nat.div_eq_zero_iff] using congrArg BitVec.toNat h
    exact BitVec.eq_of_toNat_eq (by rw [BitVec.toNat_zero]; omega)
  · rw [crcShift_of_odd hv] at h
    have hbit : ((v >>> 1) ^^^ 0xA001#16).getLsbD 15 = true := by simp
    rw [h] at hbit
    cases hbit

theorem crcShift_injective : Function.Injective crcShift := fun u v h => by
  have hzero : crcShift (u ^^^ v) = 0#16 := by rw [crcShift_xor, h, BitVec.xor_self]
  exact BitVec.xor_eq_zero_iff.mp (eq_zero_of_crcShift_eq_zero hzero)

theorem crcUpd_seed_injective (b : Byte) : Function.Injective (fun s : Half => crcUpd s b) := fun s t h => by
  simp only [crcUpd_eq_iterate] at h
  exact (BitVec.xor_left_inj _).mp (crcShift_injective.iterate 8 h)

theorem crcUpd_byte_injective (s : Half) : Function.Injective (fun b : Byte => crcUpd s b) := fun b c h => by
  simp only [crcUpd_eq_iterate] at h
  have hext := (BitVec.xor_right_inj _).mp (crcShift_injective.iterate 8 h)
  bv_omega

/-- Settles O24: linearity from the passes of the loop, which also lose nothing. -/
theorem crcUpdateIsLinear : Obligations.CrcUpdateIsLinear :=
  ⟨crcUpd_xor, rfl, crcUpd_eq_table_xor_shift, fun b => Finite.injective_iff_bijective.mp (crcUpd_seed_injective b),
    crcUpd_byte_injective 0x0000#16⟩

/-! ### Composition and the residue (R120, R122) -/

theorem crcRun_append (v : Half) (xs ys : List Byte) : crcRun v (xs ++ ys) = crcRun (crcRun v xs) ys := by
  induction xs generalizing v with
  | nil => rfl
  | cons b rest ih => exact ih (crcUpd v b)

/-- Settles O23: the value read is the CRC of the first part, so the second part goes on from it. -/
theorem crcRunComposes : Obligations.CrcRunComposes := by
  refine ⟨crcRun_append, fun A B s t h u hread => ?_⟩
  rw [issue_append _ _ (issue_map_crcByte A s)] at h
  cases h
  have hcrc : crcRun s.crc A = u.crc := by simpa using hread
  rw [issue_map_crcByte, crcRun_append, hcrc]

/-- A CRC's high byte is the low byte of the CRC shifted right by 8. -/
theorem crcUpd_shiftRight_high_byte (c : Half) : crcUpd (c >>> 8) (BitVec.ofNat 8 (c.toNat / 256)) = 0x0000#16 := by
  rw [crcUpd_of_eq_low_byte (by rw [BitVec.toNat_ushiftRight, Nat.shiftRight_eq_div_pow])]
  bv_omega

/-- Settles O25: the low byte shifts the CRC, and the high byte shifts it out. -/
theorem crcResidueIsZero : Obligations.CrcResidueIsZero := by
  refine ⟨fun c => crcUpd_of_eq_low_byte rfl, fun c => ?_, fun data => ?_⟩
  · rw [crcUpd_of_eq_low_byte rfl, crcUpd_shiftRight_high_byte]
  · rw [crc16, crcRun_append, ← crc16]
    simp only [leBytes, crcRun, ofNat_mod_of_dvd (k := 8) (m := 256) (by norm_num)]
    rw [crcUpd_of_eq_low_byte rfl, crcUpd_shiftRight_high_byte]

/-! ### The bit equations (R118) -/

/-- Each bit of R112's expression. -/
theorem getLsbD_crcUpd (s : Half) (b : Byte) {i : Nat} (hi : i < 16) :
    (crcUpd s b).getLsbD i =
      (s.getLsbD (8 + i) ^^ (byteParity (b ^^^ s.setWidth 8) && (0xC001#16).getLsbD i) ^^
        (!decide (i < 6) && (b ^^^ s.setWidth 8).getLsbD (i - 6)) ^^
        (!decide (i < 7) && (b ^^^ s.setWidth 8).getLsbD (i - 7))) := by
  rw [crcUpd_eq_formula]
  simp only [crcUpdFormula, BitVec.ofNat_toNat]
  generalize b ^^^ s.setWidth 8 = d
  cases byteParity d <;> simp [hi]

theorem byteParity_eq_xor_getLsbD (x : Byte) :
    byteParity x = (x.getLsbD 0 ^^ x.getLsbD 1 ^^ x.getLsbD 2 ^^ x.getLsbD 3 ^^ x.getLsbD 4 ^^ x.getLsbD 5 ^^
      x.getLsbD 6 ^^ x.getLsbD 7) := rfl

/-- Settles O20: each of the sixteen bits of R112's expression, with the index's bits named. -/
theorem crcByteBitEquations : Obligations.CrcByteBitEquations := by
  intro b s t h d p hd hp
  cases h
  have hindex : ∀ j, (b ^^^ s.crc.setWidth 8).getLsbD j = (decide (j < 8) && d j) := fun j => by
    by_cases hj : j < 8
    · simp [hd j hj, hj]
    · simp [BitVec.getLsbD_of_ge b j (by omega), hj]
  have hparity : byteParity (b ^^^ s.crc.setWidth 8) = p := by
    rw [byteParity_eq_xor_getLsbD, hp]
    simp only [hindex]
    rfl
  have hcrc : ∀ i, i < 16 → (writeCrc (crcUpd s.crc b) s).crc.getLsbD i =
      (s.crc.getLsbD (8 + i) ^^ (p && (0xC001#16).getLsbD i) ^^
        (!decide (i < 6) && (decide (i - 6 < 8) && d (i - 6))) ^^
        (!decide (i < 7) && (decide (i - 7 < 8) && d (i - 7)))) := fun i hi => by
    rw [writeCrc_crc, getLsbD_crcUpd _ _ hi, hparity, hindex, hindex]
  refine ⟨?_, fun i h1 h5 => ?_, ?_, ?_, fun i h8 h13 => ?_, ?_, ?_⟩
  · rw [hcrc 0 (by omega)]; simp
  · rw [hcrc i (by omega)]; interval_cases i <;> simp
  · rw [hcrc 6 (by omega)]; simp
  · rw [hcrc 7 (by omega)]; simp
  · rw [hcrc i (by omega)]; interval_cases i <;> simp
  · rw [hcrc 14 (by omega)]; simp
  · rw [hcrc 15 (by omega)]; simp

end Sys2Proof.Proofs

/-! PROOFS. What the segmenter's operations move and what they leave, the page rules, and the invariant of every step
(41_segmenter.md R141 to R158; 20_memory.md R52, R60; 10_state.md R23, R29, R31). -/

namespace Sys2Proof.Proofs

open Sys2Proof.Machine Sys2Proof.Safety

/-! ### What a run of segment steps moves -/

/-- From `s` to `t` the segmenter has moved `n` bytes on: OFF, REM and CA by `n`, and LA, the image and the moves not at
all (41_segmenter.md R151). -/
structure AdvancesBy (n : Nat) (s t : State) : Prop where
  off : t.off = s.off + n
  rem : t.rem + n = s.rem
  ca : t.ca = BitVec.ofNat 24 (s.ca.toNat + n)
  la : t.la = s.la
  img : t.img = s.img
  moves : t.moves = s.moves

theorem AdvancesBy.refl (s : State) : AdvancesBy 0 s s :=
  ⟨rfl, rfl, by rw [Nat.add_zero, BitVec.ofNat_toNat, BitVec.setWidth_eq], rfl, rfl, rfl⟩

theorem AdvancesBy.trans {m n : Nat} {s u t : State} (h : AdvancesBy m s u) (h' : AdvancesBy n u t) :
    AdvancesBy (m + n) s t where
  off := by rw [h'.off, h.off, Nat.add_assoc]
  rem := by rw [← h.rem, ← h'.rem, Nat.add_assoc, Nat.add_comm n m]
  ca := by rw [h'.ca, h.ca, ← add_trunc24, trunc24, ← BitVec.ofNat_add, Nat.add_assoc]
  la := h'.la.trans h.la
  img := h'.img.trans h.img
  moves := h'.moves.trans h.moves

/-- A segment step moves on by the length of its segment. -/
theorem segStep_advancesBy {s t : State} (h : segStep s = .next t) : AdvancesBy (segLen s.rem s.ca) s t := by
  obtain ⟨-, rfl⟩ := segStep_next h
  exact ⟨rfl, Nat.sub_add_cancel (segLen_le_rem _ _), add_trunc24 _ _, rfl, rfl, rfl⟩

theorem exec_segmenter_advancesBy {i : Instr} {s t : State} (hi : i = .segStep ∨ i = .segRun)
    (h : exec i s = .next t) : ∃ n, AdvancesBy n s t :=
  exec_segmenter_induct (P := fun s t => ∃ n, AdvancesBy n s t) (fun s => ⟨0, .refl s⟩)
    (fun _ _ _ _ hpass ⟨_, ih⟩ => ⟨_, (segStep_advancesBy hpass).trans ih⟩) hi h

/-- No operation that completes writes the image (20_memory.md R50). -/
theorem exec_img {i : Instr} {s t : State} (h : exec i s = .next t) : t.img = s.img := by
  have segmenter (hi : i = .segStep ∨ i = .segRun) : t.img = s.img :=
    let ⟨_, hadv⟩ := exec_segmenter_advancesBy hi h
    hadv.img
  cases i with
  | crcSeed | crcByte | crcRd | segStart | stRd => cases h; rfl
  | segStep => exact segmenter (.inl rfl)
  | segRun => exact segmenter (.inr rfl)

/-- Settles O46: SEG.START by definition, and the segmenter moves on without LA. -/
theorem onlySegStartWritesLa : Obligations.OnlySegStartWritesLa := by
  intro i s t h
  have segmenter (hi : i = .segStep ∨ i = .segRun) : t.la = s.la :=
    let ⟨_, hadv⟩ := exec_segmenter_advancesBy hi h
    hadv.la
  cases i with
  | crcSeed | crcByte | crcRd | segStart | stRd => cases h; rfl
  | segStep => exact segmenter (.inl rfl)
  | segRun => exact segmenter (.inr rfl)

theorem AdvancesBy.off_add_rem {n : Nat} {s t : State} (h : AdvancesBy n s t) : t.off + t.rem = s.off + s.rem := by
  rw [h.off, ← h.rem]
  omega

/-- Settles O41: what OFF gains REM loses. -/
theorem offPlusRemIsKept : Obligations.OffPlusRemIsKept := by
  refine ⟨fun a s t h => ?_, fun i s t h => ⟨exec_img h, fun hstart => ?_⟩⟩
  · rw [exec_segStart] at h
    cases h
    exact Nat.zero_add _
  · have segmenter (hi : i = .segStep ∨ i = .segRun) : t.off + t.rem = s.off + s.rem :=
      let ⟨_, hadv⟩ := exec_segmenter_advancesBy hi h
      hadv.off_add_rem
    cases i with
    | segStart a => exact absurd rfl (hstart a)
    | crcSeed | crcByte | crcRd | stRd => cases h; rfl
    | segStep => exact segmenter (.inl rfl)
    | segRun => exact segmenter (.inr rfl)

/-! ### Completion and the fault (R142, R143, R155; 20_memory.md R52) -/

/-- Settles O27: neither operation makes a segment step. -/
theorem nothingLeftChangesNothing : Obligations.NothingLeftChangesNothing :=
  fun _ h => ⟨exec_segStep_of_rem_eq_zero h, exec_segRun_of_rem_eq_zero h⟩

theorem segStep_of_gt {s : State} (h : s.img.length < s.off + segLen s.rem s.ca) :
    segStep s = .fault .imageReadOutOfRange := by
  rcases segStep_cases s with ⟨hle, -⟩ | ⟨-, he⟩
  · omega
  · exact he

/-- Settles O30: the segment step stops, and SEG.RUN stops in its first pass. -/
theorem readsOutsideTheImageFault : Obligations.ReadsOutsideTheImageFault := by
  intro s hr hgt
  rw [← segLen_eq] at hgt
  exact ⟨(exec_segStep_of_rem_ne_zero hr).trans (segStep_of_gt hgt),
    execSegRun_of_segStep_fault hr (segStep_of_gt hgt)⟩

/-- The bytes not yet emitted lie in the image. -/
def RemainingInImage (s : State) : Prop := s.rem ≠ 0 → s.off + s.rem ≤ s.img.length

theorem segStep_completes {s : State} (hr : s.rem ≠ 0) (h : RemainingInImage s) : ∃ t, segStep s = .next t := by
  have hle := segLen_le_rem s.rem s.ca
  have hin := h hr
  exact ⟨_, segStep_of_le (by omega)⟩

theorem AdvancesBy.remainingInImage {n : Nat} {s t : State} (h : AdvancesBy n s t) (hs : RemainingInImage s) :
    RemainingInImage t := fun hr => by
  rw [h.off_add_rem, h.img]
  have := h.rem
  exact hs (by omega)

/-- SEG.RUN completes, by induction on what is left. -/
theorem execSegRun_completes (s : State) (h : RemainingInImage s) : ∃ t, execSegRun s = .next t := by
  induction hn : s.rem using Nat.strong_induction_on generalizing s with
  | _ n ih =>
    by_cases hr : s.rem = 0
    · exact ⟨s, exec_segRun_of_rem_eq_zero hr⟩
    · obtain ⟨u, hstep⟩ := segStep_completes hr h
      rw [execSegRun_of_segStep hr hstep]
      exact ih u.rem (hn ▸ segStep_rem_lt hr hstep) u ((segStep_advancesBy hstep).remainingInImage h) rfl

/-- Settles O33: the run moves on by all that is left, and appends what its steps append. -/
theorem segRunCompletes : Obligations.SegRunCompletes := by
  intro s h
  obtain ⟨t, hrun⟩ := execSegRun_completes s h
  obtain ⟨hdone, -⟩ := execSegRun_eq_segSteps s t hrun
  obtain ⟨n, hadv⟩ := exec_segmenter_advancesBy (i := .segRun) (.inr rfl) hrun
  obtain ⟨bs, hout, houtn⟩ := exec_appendsOut (i := .segRun) hrun
  have hn : n = s.rem := by rw [← hadv.rem, hdone, Nat.zero_add]
  subst hn
  refine ⟨t, hrun, hdone, hadv.off, hadv.ca, hadv.la, exec_segmenter_cmderr (i := .segRun) (.inr rfl) hrun,
    exec_segmenter_rsp (i := .segRun) (.inr rfl) hrun, hadv.img, hadv.moves, hout ▸ List.prefix_append _ _, ?_⟩
  rw [hout, houtn, List.length_append]
  omega

/-- Every operation completes where the remaining bytes lie in the image. -/
theorem exec_completes (i : Instr) {s : State} (h : RemainingInImage s) : ∃ t, exec i s = .next t := by
  cases i with
  | crcSeed | crcByte | crcRd | segStart | stRd => exact ⟨_, rfl⟩
  | segStep =>
    by_cases hr : s.rem = 0
    · exact ⟨s, exec_segStep_of_rem_eq_zero hr⟩
    · rw [exec_segStep_of_rem_ne_zero hr]
      exact segStep_completes hr h
  | segRun => exact execSegRun_completes s h

/-- Settles O15: the invariant puts the remaining bytes in the image. -/
theorem everyOperationCompletes : Obligations.EveryOperationCompletes :=
  fun i _ hinv => exec_completes i fun hr => (hinv.run hr).le

/-! ### Pages (R152, R157, R158; 20_memory.md R60) -/

/-- Settles O38: the room left in the page, and the address space a whole number of pages. -/
theorem pageOkMeansOnePage : Obligations.PageOkMeansOnePage := by
  intro a n hpos hle
  refine ⟨pageOK_iff a n, (pageOK_iff a n).trans ?_⟩
  have := a.isLt
  omega

/-- CA is the address of the next segment (R157). -/
def AddressConsistent (s : State) : Prop := s.ca = BitVec.ofNat 24 (s.la.toNat + s.off)

theorem AdvancesBy.addressConsistent {n : Nat} {s t : State} (h : AdvancesBy n s t) (hs : AddressConsistent s) :
    AddressConsistent t := by
  rw [AddressConsistent, h.ca, h.la, h.off, hs, ← add_trunc24, trunc24, ← BitVec.ofNat_add, Nat.add_assoc]

/-- The page room is measured at the segment's own address, so the segment ends in its page (R158). -/
theorem pageOK_of_addressConsistent {s : State} (h : AddressConsistent s) :
    pageOK (segAddress s.la s.off) (segLen s.rem s.ca) = true := by
  have hca : s.ca = segAddress s.la s.off := h
  rw [pageOK_iff, ← hca, segLen_eq]
  omega

theorem segStep_pberr {s t : State} (hs : AddressConsistent s) (h : segStep s = .next t) : t.pberr = s.pberr := by
  obtain ⟨-, rfl⟩ := segStep_next h
  simp [pageOK_of_addressConsistent hs]

theorem exec_segmenter_pberr {i : Instr} {s t : State} (hi : i = .segStep ∨ i = .segRun) (hs : AddressConsistent s)
    (h : exec i s = .next t) : t.pberr = s.pberr :=
  exec_segmenter_induct (P := fun s t => AddressConsistent s → t.pberr = s.pberr) (fun _ _ => rfl)
    (fun _ _ _ _ hpass ih hs =>
      (ih ((segStep_advancesBy hpass).addressConsistent hs)).trans (segStep_pberr hs hpass)) hi h hs

/-- Settles O39: each step of a run starts at its segment's address. -/
theorem segmentsNeverCrossAPage : Obligations.SegmentsNeverCrossAPage :=
  fun _ hs => ⟨pageOK_of_addressConsistent hs, fun _ => exec_segmenter_pberr (.inl rfl) hs,
    fun _ => exec_segmenter_pberr (.inr rfl) hs⟩

/-- Settles O40: where something is left, the page room was what bounded the segment. -/
theorem segmentsSplitAtPageBoundaries : Obligations.SegmentsSplitAtPageBoundaries := by
  intro s t hr h hleft
  rw [exec_segStep_of_rem_ne_zero hr] at h
  obtain ⟨hoff, hrem, hca, -, -, -⟩ := segStep_advancesBy h
  have hroom : segLen s.rem s.ca = 0x10000 - s.ca.toNat % 0x10000 := by
    have := segLen_eq s.rem s.ca
    omega
  rw [hca, hoff, hroom, BitVec.toNat_ofNat]
  omega

/-! ### The invariant (R156, R157, R158; 10_state.md R29, R31) -/

/-- Settles O13: with the empty image, whose length every LENW admits. -/
theorem invariantHoldsAtReset : Obligations.InvariantHoldsAtReset :=
  ⟨fun h => absurd rfl h, rfl, rfl, rfl, imageFits_of_lt (by decide)⟩

/-- The segmenter's operations move within the run. -/
theorem exec_segmenter_inv {i : Instr} {s t : State} (hi : i = .segStep ∨ i = .segRun) (hinv : Inv s)
    (h : exec i s = .next t) : Inv t := by
  obtain ⟨n, hadv⟩ := exec_segmenter_advancesBy hi h
  exact {
    run := fun hr => by
      rw [hadv.off_add_rem, hadv.img]
      exact hinv.run (by have := hadv.rem; omega)
    address := hadv.addressConsistent hinv.address
    stream := exec_memory_wf hinv.stream h
    validator := (exec_segmenter_pberr hi hinv.address h).trans hinv.validator
    image := hadv.img ▸ hinv.image }

/-- Every operation that completes keeps the invariant. -/
theorem exec_inv {i : Instr} {s t : State} (hinv : Inv s) (h : exec i s = .next t) : Inv t := by
  cases i with
  | crcSeed | crcByte | crcRd | stRd =>
    cases h
    exact ⟨hinv.run, hinv.address, hinv.stream, hinv.validator, hinv.image⟩
  | segStart a =>
    rw [exec_segStart] at h
    cases h
    exact ⟨fun _ => Nat.zero_add _, by simp, hinv.stream, hinv.validator, hinv.image⟩
  | segStep => exact exec_segmenter_inv (.inl rfl) hinv h
  | segRun => exact exec_segmenter_inv (.inr rfl) hinv h

/-- Settles O14, by the host's move: an operation keeps the invariant, a bind during a run binds the same image, and a
reset starts it afresh over the image that is bound. -/
theorem stepKeepsInvariant : Obligations.StepKeepsInvariant := by
  intro s t hinv h
  obtain ⟨hrun, haddress, hstream, hvalidator, himage⟩ := hinv
  rcases step_next h with ⟨-, rfl⟩ | ⟨w, rest, i, -, -, hexec⟩ | ⟨w, rest, why, -, -, rfl⟩ |
    ⟨img, rest, -, rfl, hfit, hsame⟩ | ⟨rest, -, rfl⟩
  · exact ⟨hrun, haddress, hstream, hvalidator, himage⟩
  · have hmove : Inv { s with moves := rest } := ⟨hrun, haddress, hstream, hvalidator, himage⟩
    exact exec_inv hmove hexec
  · exact ⟨hrun, haddress, hstream, hvalidator, himage⟩
  · exact ⟨fun hr => (hrun hr).trans (by rw [hsame hr]), haddress, hstream, hvalidator, hfit⟩
  · exact ⟨fun hr => absurd rfl hr, rfl, rfl, rfl, himage⟩

/-! ### One step's record, and what CRC and RSP have to do with it (20_memory.md R53; 70_reset_and_hazards.md R218) -/

theorem readOut_of_ge {s : State} {pos : Nat} (h : s.outn ≤ pos) : readOut s pos = none := if_neg (by omega)

/-- A segment step adds one record to OUT, of the segment at the registers' address, with the CRC it leaves in CRC. -/
theorem segStep_out {s t : State} (h : segStep s = .next t) :
    t.out = s.out ++ recordBytes ((s.la.toNat + s.off) % 0x1000000) (segLen s.rem s.ca)
        ((s.img.drop s.off).take (segLen s.rem s.ca)) t.crc ∧
      t.outn = s.outn + (7 + segLen s.rem s.ca) := by
  obtain ⟨hle, rfl⟩ := segStep_next h
  rw [emitSegment_eq]
  simp only [segmentBytes, segmentOf_address, segmentOf_length, segmentOf_data, segAddress_toNat, true_and]
  rw [List.length_take_of_le (by rw [List.length_drop]; omega)]

/-- Settles O29: below the record OUT is kept, beyond it there is nothing, and the record stands from the old OUTN on. -/
theorem segStepStoresOnlyItsRecord : Obligations.SegStepStoresOnlyItsRecord := by
  intro s t n hwf hr hn h
  have hwf' := exec_memory_wf hwf h
  obtain ⟨hout, houtn⟩ := segStep_out ((exec_segStep_of_rem_ne_zero hr).symm.trans h)
  rw [← segLen_eq] at hn
  subst hn
  refine ⟨fun pos hpos => ?_, fun k _ => ?_, fun off => by rw [exec_img h]⟩
  · rcases hpos with hlt | hge
    · exact exec_readOut_of_lt hwf h hlt
    · rw [readOut_of_ge (s := t) (by omega), readOut_of_ge (s := s) (by omega)]
  · rw [readOut_eq t hwf', hout, hwf, List.getElem?_append_right (Nat.le_add_right _ _), Nat.add_sub_cancel_left]

theorem segStep_with_crc_rsp {s t : State} (c : Half) (r : List Half) (h : segStep s = .next t) :
    segStep { s with crc := c, rsp := r } = .next { t with rsp := r } := by
  obtain ⟨hle, rfl⟩ := segStep_next h
  exact segStep_of_le hle

theorem execSegRun_with_rsp (r : List Half) : ∀ s t : State, execSegRun s = .next t →
    execSegRun { s with rsp := r } = .next { t with rsp := r } := by
  apply execSegRun_induct
  case done => exact fun s hr => exec_segRun_of_rem_eq_zero hr
  case pass =>
    intro s u t hr hpass ih
    exact (execSegRun_of_segStep (s := { s with rsp := r }) hr (segStep_with_crc_rsp s.crc r hpass)).trans ih

/-- Settles O44: the first step overwrites CRC with its segment's, and no step reads RSP. -/
theorem hostCrcCannotChangeRecords : Obligations.HostCrcCannotChangeRecords := by
  refine fun s t c r hr => ⟨fun h => ?_, fun h => ?_⟩
  · rw [exec_segStep_of_rem_ne_zero hr] at h
    exact (exec_segStep_of_rem_ne_zero (s := { s with crc := c, rsp := r }) hr).trans (segStep_with_crc_rsp c r h)
  · rcases segStep_cases s with ⟨-, hstep⟩ | ⟨-, hstep⟩
    · have hrun := (execSegRun_of_segStep hr hstep).symm.trans h
      exact (execSegRun_of_segStep (s := { s with crc := c, rsp := r }) hr (segStep_with_crc_rsp c r hstep)).trans
        (execSegRun_with_rsp r _ _ hrun)
    · rw [exec, execSegRun_of_segStep_fault hr hstep] at h
      cases h

end Sys2Proof.Proofs

/-! PROOFS. Records read back, and the shape of a whole run: the closed form of its segments is what the machine emits
(30_encoding.md R92, R94; 41_segmenter.md R155, R159 to R164; 70_reset_and_hazards.md R221). -/

namespace Sys2Proof.Proofs

open Sys2Proof.Machine Sys2Proof.Safety

/-! ### Reading a record back (R92, R94) -/

theorem append_bytes_eq_addr (a : Addr) : hi8 a ++ mid8 a ++ lo8 a = a := by
  rw [hi8, mid8, lo8, BitVec.extractLsb'_append_extractLsb'_eq_extractLsb' (by rfl),
    BitVec.extractLsb'_append_extractLsb'_eq_extractLsb' (by rfl)]
  exact BitVec.extractLsb'_eq_self

theorem append_bytes_eq_half (v : Half) : mid8 v ++ lo8 v = v := by
  rw [mid8, lo8, BitVec.extractLsb'_append_extractLsb'_eq_extractLsb' (by rfl)]
  exact BitVec.extractLsb'_eq_self

theorem length_segmentBytes (g : Segment) : (segmentBytes g).length = 7 + g.data.length := by
  rw [← serialise_eq_segmentBytes, serialise_length]

/-- The length field tells the reader where the data ends, and the other fields are their own bytes. -/
theorem parseRecord_segmentBytes_append {g : Segment} (hpos : 1 ≤ g.length) (hle : g.length ≤ 65536)
    (hdata : g.data.length = g.length) (rest : List Byte) :
    parseRecord (segmentBytes g ++ rest) = some (g, rest) := by
  have hbytes : segmentBytes g ++ rest =
      lo8 g.address :: mid8 g.address :: hi8 g.address :: lo8 (lengthField g.length) ::
        mid8 (lengthField g.length) :: (g.data ++ (lo8 g.crc :: mid8 g.crc :: rest)) := by
    rw [← serialise_eq_segmentBytes]
    simp [serialise, addrBytes, halfBytes]
  have hstored : storedLength (lo8 (lengthField g.length)) (mid8 (lengthField g.length)) = g.length := by
    rw [storedLength_lo8_mid8, lengthField_toNat hle]
    omega
  rw [hbytes, parseRecord, hstored, List.drop_left' hdata, List.take_left' hdata, append_bytes_eq_addr]
  simp only [append_bytes_eq_half]

/-- Settles O43: the record's length, and its fields read back. -/
theorem recordsParseBack : Obligations.RecordsParseBack := fun g rest hpos hle hdata =>
  ⟨by rw [length_segmentBytes, hdata], parseRecord_segmentBytes_append hpos hle hdata rest⟩

/-! ### The closed form of R160 -/

theorem segOffset_zero (A : Addr) : segOffset A 0 = 0 := rfl

theorem segOffset_succ (A : Addr) (k : Nat) : segOffset A (k + 1) = firstRoom A + k * 65536 := rfl

/-- There is a segment `k` exactly where the image goes beyond its offset. -/
theorem lt_segCount_iff (A : Addr) (L k : Nat) : k < segCount A L ↔ segOffset A k < L := by
  have hroom : 0 < firstRoom A := by rw [firstRoom]; omega
  unfold segCount
  cases k with
  | zero =>
    rw [segOffset_zero]
    split_ifs <;> omega
  | succ k =>
    rw [segOffset_succ]
    split_ifs <;> omega

/-- A segment begins at a page boundary or at the load address, and the next one begins at the next page boundary. -/
theorem segOffset_add_room (A : Addr) (k : Nat) :
    segOffset A k + (0x10000 - (A.toNat + segOffset A k) % 0x10000) = segOffset A (k + 1) := by
  cases k with
  | zero => rw [segOffset_succ, segOffset_zero, firstRoom]; omega
  | succ k => rw [segOffset_succ, segOffset_succ, firstRoom]; omega

/-- The number of bytes in the first `k` segments: up to the offset of segment `k`, or all of them. -/
def bytesBefore (A : Addr) (L k : Nat) : Nat := min L (segOffset A k)

theorem bytesBefore_zero (A : Addr) (L : Nat) : bytesBefore A L 0 = 0 := Nat.min_zero L

theorem bytesBefore_of_lt {A : Addr} {L k : Nat} (hk : k < segCount A L) : bytesBefore A L k = segOffset A k := by
  rw [lt_segCount_iff] at hk
  exact Nat.min_eq_right hk.le

theorem bytesBefore_segCount (A : Addr) (L : Nat) : bytesBefore A L (segCount A L) = L := by
  have hlast := (lt_segCount_iff A L (segCount A L)).not.mp (lt_irrefl _)
  exact Nat.min_eq_left (by omega)

/-- The closed form of a segment's length is what lies between its offset and the next one's, or the image's end. -/
theorem segOffset_add_segLength {A : Addr} {L k : Nat} (hk : k < segCount A L) :
    segOffset A k + segLength A L k = bytesBefore A L (k + 1) := by
  have hoff := (lt_segCount_iff A L k).mp hk
  have hnext := lt_segCount_iff A L (k + 1)
  unfold segLength bytesBefore
  cases k with
  | zero => rw [if_pos rfl, segOffset_succ, segOffset_zero]; omega
  | succ k =>
    rw [segOffset_succ] at hoff hnext ⊢
    rw [segOffset_succ, if_neg (Nat.succ_ne_zero k)]
    split_ifs <;> omega

/-- A segment's length as the machine computes it at the segment's address (R147). -/
theorem segLength_eq_min {A : Addr} {L k : Nat} (hk : k < segCount A L) :
    segLength A L k = min (L - segOffset A k) (0x10000 - (A.toNat + segOffset A k) % 0x10000) := by
  have hoff := (lt_segCount_iff A L k).mp hk
  have hlen := segOffset_add_segLength hk
  rw [bytesBefore, ← segOffset_add_room] at hlen
  omega

theorem segLength_pos {A : Addr} {L k : Nat} (hk : k < segCount A L) : 1 ≤ segLength A L k := by
  have hoff := (lt_segCount_iff A L k).mp hk
  rw [segLength_eq_min hk]
  omega

theorem segOffset_add_segLength_le {A : Addr} {L k : Nat} (hk : k < segCount A L) :
    segOffset A k + segLength A L k ≤ L :=
  (segOffset_add_segLength hk).trans_le (Nat.min_le_left _ _)

/-- Only the last segment can begin beyond the address space, since 2^24 is a page boundary (R163). -/
theorem address_space_passed_iff {A : Addr} {L k : Nat} (hk : k < segCount A L) :
    0x1000000 < A.toNat + bytesBefore A L (k + 1) ↔ 0x1000000 ≤ A.toNat + segOffset A k := by
  have hA := A.isLt
  have hpos := segLength_pos hk
  have hroom := segOffset_add_room A k
  have hlen := segLength_eq_min hk
  rw [← segOffset_add_segLength hk]
  omega

/-- The wrap test of R149, ored over the segments, says whether their bytes have passed the address space. -/
theorem address_space_passed_succ {A : Addr} {L k : Nat} (hk : k < segCount A L) :
    decide (0x1000000 < A.toNat + bytesBefore A L (k + 1)) =
      (decide (0x1000000 < A.toNat + bytesBefore A L k) || decide (0x1000000 ≤ A.toNat + bytesBefore A L k)) := by
  rw [← Bool.decide_or, decide_eq_decide, address_space_passed_iff hk, bytesBefore_of_lt hk]
  omega

/-! ### The segments of a run -/

/-- The first `k` segments of a run. -/
def firstSegments (img : List Byte) (A : Addr) (k : Nat) : List Segment := (List.range k).map (runSegment img A)

theorem firstSegments_succ (img : List Byte) (A : Addr) (k : Nat) :
    firstSegments img A (k + 1) = firstSegments img A k ++ [runSegment img A k] := by
  rw [firstSegments, List.range_succ, List.map_append]
  rfl

section
variable (img : List Byte) (A : Addr) (k : Nat)

@[simp] theorem runSegment_address :
    (runSegment img A k).address = BitVec.ofNat 24 (A.toNat + segOffset A k) := rfl

@[simp] theorem runSegment_length : (runSegment img A k).length = segLength A img.length k := rfl

@[simp] theorem runSegment_data : (runSegment img A k).data = segData img A k := rfl

end

theorem runSegments_eq_firstSegments (img : List Byte) (A : Addr) :
    runSegments img A = firstSegments img A (segCount A img.length) := rfl

theorem take_runSegments {img : List Byte} {A : Addr} {k : Nat} (hk : k ≤ segCount A img.length) :
    (runSegments img A).take k = firstSegments img A k := by
  rw [runSegments, ← List.map_take, List.take_range, Nat.min_eq_left hk]
  rfl

section
variable {img : List Byte} {A : Addr} {k : Nat}

theorem length_segData (hk : k < segCount A img.length) : (segData img A k).length = segLength A img.length k := by
  have hle := segOffset_add_segLength_le hk
  rw [segData, List.length_take_of_le (by rw [List.length_drop]; omega)]

theorem sum_length_firstSegments (hk : k ≤ segCount A img.length) :
    ((firstSegments img A k).map Segment.length).sum = bytesBefore A img.length k := by
  induction k with
  | zero => exact (bytesBefore_zero A _).symm
  | succ k ih =>
    rw [firstSegments_succ, List.map_append, List.sum_append, ih (by omega), bytesBefore_of_lt hk,
      ← segOffset_add_segLength hk]
    simp

theorem flatMap_data_firstSegments (hk : k ≤ segCount A img.length) :
    (firstSegments img A k).flatMap Segment.data = img.take (bytesBefore A img.length k) := by
  induction k with
  | zero => rw [bytesBefore_zero]; rfl
  | succ k ih =>
    rw [firstSegments_succ, List.flatMap_append, ih (by omega), bytesBefore_of_lt hk, ← segOffset_add_segLength hk,
      List.take_add]
    simp [segData]

theorem length_flatMap_segmentBytes_firstSegments (hk : k ≤ segCount A img.length) :
    ((firstSegments img A k).flatMap segmentBytes).length = bytesBefore A img.length k + 7 * k := by
  induction k with
  | zero => rw [bytesBefore_zero]; rfl
  | succ k ih =>
    rw [firstSegments_succ, List.flatMap_append, List.length_append, ih (by omega), bytesBefore_of_lt hk,
      ← segOffset_add_segLength hk]
    simp only [List.flatMap_cons, List.flatMap_nil, List.append_nil, length_segmentBytes, runSegment_data,
      length_segData hk]
    omega

end

/-- Settles O35, by induction on the segments, each of which begins where those before it end. -/
theorem segmentsCoverTheImage : Obligations.SegmentsCoverTheImage := by
  refine fun img A => ⟨?_, ?_, fun k hk => ⟨?_, segLength_pos hk, ?_, length_segData hk⟩⟩
  · rw [runSegments_eq_firstSegments, flatMap_data_firstSegments le_rfl, bytesBefore_segCount, List.take_length]
  · rw [runSegments_eq_firstSegments, length_flatMap_segmentBytes_firstSegments le_rfl, bytesBefore_segCount]
  · rw [take_runSegments hk.le, sum_length_firstSegments hk.le, bytesBefore_of_lt hk]
  · have hlen : (runSegment img A k).length = _ := segLength_eq_min hk
    omega

/-- No segment of the closed form crosses a page (R158). -/
theorem runSegment_in_page {img : List Byte} {A : Addr} {k : Nat} (hk : k < segCount A img.length) :
    (runSegment img A k).address.toNat % 0x10000 + (runSegment img A k).length ≤ 0x10000 := by
  have hlen := segLength_eq_min hk
  rw [runSegment_address, runSegment_length, BitVec.toNat_ofNat]
  omega

/-! ### The machine along a run -/

/-- The state after SEG.START A and `k` segment steps. -/
def runState (s : State) (A : Addr) (k : Nat) : State :=
  { s with
    la := A
    ca := BitVec.ofNat 24 (A.toNat + bytesBefore A s.img.length k)
    off := bytesBefore A s.img.length k
    rem := s.img.length - bytesBefore A s.img.length k
    crc := ((firstSegments s.img A k).getLast?.map Segment.crc).getD s.crc
    awrap := s.awrap || decide (0x1000000 < A.toNat + bytesBefore A s.img.length k)
    out := s.out ++ (firstSegments s.img A k).flatMap segmentBytes
    outn := s.outn + (bytesBefore A s.img.length k + 7 * k) }

section
variable (s : State) (A : Addr)

theorem exec_segStart_eq_runState : exec (.segStart A) s = .next (runState s A 0) := by
  have hA : ¬ 0x1000000 < A.toNat := by have := A.isLt; omega
  rw [exec_segStart]
  simp [runState, bytesBefore_zero, firstSegments, hA]

theorem addressConsistent_runState (k : Nat) : AddressConsistent (runState s A k) := rfl

theorem runState_rem_eq_zero_iff {k : Nat} (hk : k ≤ segCount A s.img.length) :
    (runState s A k).rem = 0 ↔ k = segCount A s.img.length := by
  have hlt := lt_segCount_iff A s.img.length k
  change s.img.length - bytesBefore A s.img.length k = 0 ↔ _
  rw [bytesBefore]
  omega

variable {s A}

theorem segLen_runState {k : Nat} (hk : k < segCount A s.img.length) :
    segLen (runState s A k).rem (runState s A k).ca = segLength A s.img.length k := by
  rw [segLen_eq, segLength_eq_min hk]
  simp only [runState, bytesBefore_of_lt hk, BitVec.toNat_ofNat]
  omega

/-- The registers name the next segment of the closed form. -/
theorem segmentOf_runState {k : Nat} (hk : k < segCount A s.img.length) :
    segmentOf (runState s A k) (segData s.img A k) = runSegment s.img A k := by
  rw [segmentOf, segLen_runState hk, runSegment]
  simp only [runState, bytesBefore_of_lt hk]
  rfl

/-- Emitting the next segment of the closed form leads to the next state of the run. -/
theorem emitSegment_runState {k : Nat} (hk : k < segCount A s.img.length) :
    emitSegment (runSegment s.img A k) (runState s A k) = runState s A (k + 1) := by
  have hoff := bytesBefore_of_lt hk
  have hnext := segOffset_add_segLength hk
  have hpage := (runSegment_in_page hk).not_gt
  rw [emitSegment_eq]
  simp only [runState, State.mk.injEq, true_and, and_true]
  refine ⟨?crc, ?ca, ?off, ?rem, ?awrap, ?pberr, ?outn, ?out⟩
  case crc => rw [firstSegments_succ, List.getLast?_concat]; rfl
  case ca =>
    rw [← add_trunc24, trunc24, ← BitVec.ofNat_add, runSegment_length, hoff, Nat.add_assoc, hnext]
  case off => rw [runSegment_length, hoff, hnext]
  case rem => rw [runSegment_length, hoff, Nat.sub_sub, hnext]
  case awrap =>
    rw [Bool.or_assoc]
    exact congrArg (s.awrap || ·) (address_space_passed_succ hk).symm
  case pberr => rw [decide_eq_false hpage, Bool.or_false]
  case outn => rw [runSegment_data, length_segData hk, hoff, ← hnext]; omega
  case out => rw [firstSegments_succ, List.flatMap_append, List.append_assoc]; simp

theorem segStep_runState {k : Nat} (hk : k < segCount A s.img.length) :
    segStep (runState s A k) = .next (runState s A (k + 1)) := by
  have hoff : (runState s A k).off = segOffset A k := bytesBefore_of_lt hk
  have hle : (runState s A k).off + segLen (runState s A k).rem (runState s A k).ca ≤ s.img.length := by
    rw [hoff, segLen_runState hk]
    exact segOffset_add_segLength_le hk
  rw [segStep_of_le hle, hoff, segLen_runState hk, ← emitSegment_runState hk, ← segmentOf_runState hk]
  rfl

theorem issue_segSteps_runState {k : Nat} (hk : k ≤ segCount A s.img.length) :
    issue (List.replicate k .segStep) (runState s A 0) = .next (runState s A k) := by
  induction k with
  | zero => rfl
  | succ k ih =>
    have hr : (runState s A k).rem ≠ 0 := (runState_rem_eq_zero_iff s A (by omega)).not.mpr (by omega)
    rw [List.replicate_succ', issue_append _ _ (ih (by omega)),
      issue_cons_of_next ((exec_segStep_of_rem_ne_zero hr).trans (segStep_runState hk))]
    rfl

end

theorem issue_segStart_segRun (s : State) (A : Addr) :
    issue [.segStart A, .segRun] s = .next (runState s A (segCount A s.img.length)) := by
  have hdone := (runState_rem_eq_zero_iff s A le_rfl).mpr rfl
  have hrun : exec .segRun (runState s A 0) = .next (runState s A (segCount A s.img.length)) := by
    rw [← exec_segRun_after_segSteps _ (issue_segSteps_runState le_rfl), exec_segRun_of_rem_eq_zero hdone]
  rw [issue_cons_of_next (exec_segStart_eq_runState s A), issue_cons_of_next hrun]
  rfl

/-- Settles O32: a run after SEG.START goes through the states of the closed form, of which only the last has nothing
left. -/
theorem segRunTerminatesWithinRem : Obligations.SegRunTerminatesWithinRem := by
  refine ⟨fun s t hr h => ?_, fun s t h => (execSegRun_eq_segSteps s t h).2, fun s A k hk => ⟨runState s A k, ?_, ?_⟩⟩
  · exact segStep_rem_lt hr ((exec_segStep_of_rem_ne_zero hr).symm.trans h)
  · rw [issue_cons_of_next (exec_segStart_eq_runState s A), issue_segSteps_runState hk]
  · exact runState_rem_eq_zero_iff s A hk

/-- Settles O34: the last state of the run. -/
theorem encodeAppendsTheRunsRecords : Obligations.EncodeAppendsTheRunsRecords := by
  intro s A
  have hwrap : (1 ≤ s.img.length ∧ 0x1000000 < A.toNat + s.img.length) ↔ 0x1000000 < A.toNat + s.img.length := by
    have := A.isLt
    omega
  rw [issue_segStart_segRun, runState, bytesBefore_segCount, Nat.sub_self, ← runSegments_eq_firstSegments]
  simp only [hwrap]

/-- Settles O42: the flag from the run's last state, the range from its segment's page room. -/
theorem awrapSetExactlyPastTheAddressSpace : Obligations.AwrapSetExactlyPastTheAddressSpace := by
  refine ⟨fun s t A hclear h => ?_, fun img A k x hk hlo hhi => ?_⟩
  · rw [encodeAppendsTheRunsRecords s A] at h
    cases h
    rw [hclear, Bool.false_or, decide_eq_true_iff]
  · have hlen := segLength_eq_min hk
    omega

end Sys2Proof.Proofs
